-- ==== Sys2Proof/Word.lean ====
section
/-! DEFINITION. The value types of the block (`00_scope.md` R10, `41_pixel_cache.md` R140): bytes, slot
numbers, 32-bit header fields, the pixel, and the default pixel. -/

namespace Sys2Proof

/-- `u8`, an unsigned 8-bit value (R10). -/
abbrev Byte := BitVec 8

/-- `u6`, the number of a history-cache slot, 0..63 (R10, R147). -/
abbrev Slot := BitVec 6

/-- `u32`, an unsigned 32-bit header field (R10, R120). -/
abbrev U32 := BitVec 32

/-- A pixel: four unsigned 8-bit channels and nothing else (R140). The derived equality is the exact,
channel-wise comparator of R142, alpha included. -/
structure Pixel where
  r : Byte
  g : Byte
  b : Byte
  a : Byte
deriving DecidableEq, Repr

/-- `DEFAULT`, fully-opaque black (R141). -/
def Pixel.opaqueBlack : Pixel := ⟨0, 0, 0, 255⟩

end Sys2Proof
end

