-- ==== Sys2Proof/Config.lean ====
section
/-! DEFINITION. The two build-time parameters of the block (`00_scope.md` R7, R8; `10_state.md` R51). The
platform fixes them and the spec gives neither, so each is an opaque constant: no proof can see its value.
Every function that needs them takes them as an argument `P : Params`, as R7 and R8 ask, and only
`Machine/Step.lean` supplies the constants. -/

namespace Sys2Proof

/-- A sequence of exactly 4 bytes, the header's identifier (R8). -/
structure Magic where
  m0 : Byte
  m1 : Byte
  m2 : Byte
  m3 : Byte
deriving DecidableEq, Repr, Inhabited

/-- The open parameters: `MAGIC` (R8) and `MAX_OUTPUT_BYTES`, a natural number, or `none` for unbounded (R7). -/
structure Params where
  magic : Magic
  maxOutputBytes : Option Nat
deriving DecidableEq, Repr, Inhabited

/-- `MAGIC` (R8): the spec gives no value. Log entry 1. -/
opaque Config.magic : Magic

/-- `MAX_OUTPUT_BYTES` (R7): the spec gives no value. Log entry 2. -/
opaque Config.maxOutputBytes : Option Nat

/-- The parameters of this block. -/
def Config.params : Params := ⟨Config.magic, Config.maxOutputBytes⟩

end Sys2Proof
end

