-- ==== Sys2Proof/Syntax.lean ====
section
/-! DEFINITION. The opcode values (`30_encoding.md` R103): one constructor per row of the opcode table, each
holding the wire field values (biased, as stored in the bytes: `00_scope.md` R13, `30_encoding.md` R99). -/

namespace Sys2Proof

/-- The closed sum of the seven opcode variants (R90, R103). The derived equality is R200's: the same variant
and every field equal. -/
inductive Instr where
  /-- INDEX(k): the pixel in cache slot `k` (R92). -/
  | index (k : Slot)
  /-- DIFF(dr, dg, db): per-channel deltas, each stored plus 2 (R93). -/
  | diff (dr dg db : BitVec 2)
  /-- LUMA(dg, drg, dbg): green delta plus 32, red-minus-green and blue-minus-green plus 8 (R94). -/
  | luma (dg : BitVec 6) (drg dbg : BitVec 4)
  /-- RUN(n): run length minus 1. The spec's field ranges over 0..61, which `Instr.wellFormed` checks (R95, R103). -/
  | run (n : BitVec 6)
  /-- RGB(r, g, b): literal channels, no alpha (R96). -/
  | rgb (r g b : Byte)
  /-- RGBA(r, g, b, a): literal channels with alpha (R97). -/
  | rgba (r g b a : Byte)
  /-- NONE: the sentinel for 'no valid opcode parsed', which has no encoding (R98). -/
  | none
deriving DecidableEq, Repr

end Sys2Proof
end

