-- ==== Sys2Proof/WellFormed.lean ====
section
/-! DEFINITION. Which opcode values are well-formed: the ones a byte sequence of a stream can stand for. -/

namespace Sys2Proof

/-- Two checks: RUN's field is 0..61, because 62 and 63 would spell the RGB and RGBA tags (R95, R103), and NONE
has no encoding (R98). Every value of every other field is legal (R92, R93, R94, R96, R97). -/
def Instr.wellFormed : Instr → Bool
  | .index _ => true
  | .diff _ _ _ => true
  | .luma _ _ _ => true
  | .run n => decide (n.toNat ≤ 61)
  | .rgb _ _ _ => true
  | .rgba _ _ _ _ => true
  | .none => false

/-- The five variants that produce a pixel, the ones `Apply` takes (R170, R173). -/
def Instr.producesPixel : Instr → Bool
  | .index _ => true
  | .diff _ _ _ => true
  | .luma _ _ _ => true
  | .run _ => false
  | .rgb _ _ _ => true
  | .rgba _ _ _ _ => true
  | .none => false

end Sys2Proof
end

