-- ==== Sys2Proof/Decode.lean ====
section
/-! DEFINITION. The opcode deserializer and serializer: classification of the first byte (`30_encoding.md` R91),
lengths (R101), `Parse` (`42_opcodes.md` R172) as `decode`, and `Ser` (R171) as `encode`. `decode` is total on any
bytes and rejects by name. The DIFF and LUMA field placements are the spec's own choice (UNVERIFIED, unsafe: log
entries 3 and 4). -/

namespace Sys2Proof

/-- The classes a first byte can fall in (R91). `none` is R198's defensive guard; no byte reaches it. -/
inductive OpClass where
  | index
  | diff
  | luma
  | run
  | rgb
  | rgba
  | none
deriving DecidableEq, Repr

/-- `v[lo + len - 1 : lo]` (R9). -/
def bits {w : Nat} (v : BitVec w) (lo len : Nat) : BitVec len := v.extractLsb' lo len

/-- R91, in the order it gives: the two full-byte tags first, then the top two bits. -/
def classify (t : Byte) : OpClass :=
  if t = 0xFE#8 then .rgb
  else if t = 0xFF#8 then .rgba
  else if bits t 6 2 = 0b00#2 then .index
  else if bits t 6 2 = 0b01#2 then .diff
  else if bits t 6 2 = 0b10#2 then .luma
  else if bits t 6 2 = 0b11#2 then .run
  else .none

/-- The total length of an opcode of each class (R101); NONE consumes 1 byte (R198). -/
def OpClass.length : OpClass → Nat
  | .index => 1
  | .diff => 1
  | .luma => 2
  | .run => 1
  | .rgb => 4
  | .rgba => 5
  | .none => 1

/-- The length of the longest opcode, RGBA's (R101). -/
def longestOpcode : Nat := 5

/-- What `Parse` answers (R170): an opcode with the number of bytes consumed, or the underrun it raises. -/
inductive Decoded where
  | ok (i : Instr) (n : Nat)
  /-- The input ends before the opcode does (R172, R281). -/
  | underrun
deriving DecidableEq, Repr

/-- `Parse(IN, p)` of R172, given the bytes of IN from offset `p` on. -/
def decode : List Byte → Decoded
  | [] => .underrun
  | t :: rest =>
    match classify t with
    | .rgb =>
      match rest with
      | r :: g :: b :: _ => .ok (.rgb r g b) 4
      | _ => .underrun
    | .rgba =>
      match rest with
      | r :: g :: b :: a :: _ => .ok (.rgba r g b a) 5
      | _ => .underrun
    | .index => .ok (.index (bits t 0 6)) 1
    | .diff => .ok (.diff (bits t 4 2) (bits t 2 2) (bits t 0 2)) 1
    | .luma =>
      match rest with
      | u :: _ => .ok (.luma (bits t 0 6) (bits u 4 4) (bits u 0 4)) 2
      | _ => .underrun
    | .run => .ok (.run (bits t 0 6)) 1
    | .none => .ok .none 1

/-- `Ser` of R171: the bytes of an opcode value (R175, R178, R181, R184, R191, R194, R197). -/
def encode : Instr → List Byte
  | .index k => [0b00#2 ++ k]
  | .diff dr dg db => [0b01#2 ++ dr ++ dg ++ db]
  | .luma dg drg dbg => [0b10#2 ++ dg, drg ++ dbg]
  | .run n => [0b11#2 ++ n]
  | .rgb r g b => [0xFE#8, r, g, b]
  | .rgba r g b a => [0xFF#8, r, g, b, a]
  | .none => []

/-- The bytes of an instruction whose bits are `w`, numbered as the opcode table numbers them (bit 0 is the least
significant bit of the first byte, the second byte is bits 15..8), with zeros above `nbits` up to the longest
opcode. A row of 0 bits (NONE) has no bytes: it has no encoding (R98). -/
def tableBytes (nbits w : Nat) : List Byte :=
  if nbits = 0 then []
  else (List.range longestOpcode).map fun j => BitVec.ofNat 8 ((w % 2 ^ nbits) >>> (8 * j))

/-- The instruction `decode` reads from an instruction whose bits are `w`. -/
def decodeTableWord (nbits w : Nat) : Option Instr :=
  match decode (tableBytes nbits w) with
  | .ok i _ => some i
  | .underrun => Option.none

end Sys2Proof
end

