-- ==== Sys2Proof/Machine/State.lean ====
section
/-! DEFINITION. The state of the block (`10_state.md`): the encoder engine ENC (R33 to R39), the decoder engine
DEC (R40 to R48), the phase register and the result of each (R31, R32), and the host (R30). State is plain data.
Every register holds a value at reset (`State.reset`); the values that the spec does not give are log entries 10 and 11. -/

namespace Sys2Proof.Machine

/-- The phase register of an engine (R32). -/
inductive Phase where
  | idle
  | active
  | done
  | error
deriving DecidableEq, Repr

/-- The header fields of a call (R31, R47, R120). The magic is no field of it: ENCODE's header carries none and
DECODE's result returns none (R31). -/
structure Header where
  width : U32
  height : U32
  channels : Byte
  colorspace : Byte
deriving DecidableEq, Repr

/-- The reasons of ValidationError (`60_exceptions.md` R311). -/
inductive ValidationReason where
  | empty
  | shortHeader
  | widthZero
  | heightZero
  | badChannels
  | badColorspace
  | lengthMismatch
  | capacity
deriving DecidableEq, Repr

/-- The reasons of ParseError (R313). -/
inductive ParseReason where
  | noneTag
  | underrun
  | runWithoutOpcode
  | overrun
deriving DecidableEq, Repr

/-- The three errors, each with the detail it records (R310). -/
inductive CallError where
  | validation (reason : ValidationReason)
  | magicMismatch (expected found : Magic)
  | parse (reason : ParseReason) (offset : Nat)
deriving DecidableEq, Repr

/-- The result of an ENCODE call: the compressed stream, or ValidationError, its only error (R31). -/
inductive EncResult where
  | ok (stream : List Byte)
  | validationError (reason : ValidationReason)
deriving DecidableEq, Repr

/-- The result of a DECODE call: the header read and the raw buffer, or one of the three errors (R31). -/
inductive DecResult where
  | ok (hdr : Header) (raw : List Byte)
  | error (e : CallError)
deriving DecidableEq, Repr

/-- A history cache: 64 slots of one pixel each (R33, R40, R147). -/
abbrev Cache := Vector Pixel 64

/-- The output buffer of DECODE, a byte-addressed space (`20_memory.md` R60), as the list of the offsets that have
been written, in rising order, each with its byte. An offset that is not listed holds no value (R46, log entry 14). -/
abbrev Memory := List Host.Cell

/-- The registers of the encoder engine. -/
structure Enc where
  /-- `ENC.phase` (R32). -/
  phase : Phase
  /-- `ENC.C[0..63]` (R33). -/
  cache : Cache
  /-- `ENC.prev` (R34). -/
  prev : Pixel
  /-- `ENC.prevOp`; `none` is ⊥, no opcode yet (R35). -/
  prevOp : Option Instr
  /-- `ENC.run`, 0..62 (R36). -/
  run : Nat
  /-- `ENC.i`, the pixel index (R37). -/
  i : Nat
  /-- `ENC.out`, the append-only output sequence (R38). -/
  out : List Byte
  /-- The header of the call (R39). -/
  hdr : Header
  /-- The raw buffer `buf`, the space IN of ENCODE (R39, R60). -/
  buf : List Byte
  /-- The result of the call that ended, until the host takes it (R31, R32); `none` is 'no result'. -/
  result : Option EncResult
deriving DecidableEq, Repr

/-- The registers of the decoder engine. -/
structure Dec where
  /-- `DEC.phase` (R32). -/
  phase : Phase
  /-- `DEC.C[0..63]` (R40). -/
  cache : Cache
  /-- `DEC.prev` (R41). -/
  prev : Pixel
  /-- `DEC.lastOp`; `none` is ⊥ (R42). -/
  lastOp : Option Instr
  /-- `DEC.pending`, 0..62 (R43). -/
  pending : Nat
  /-- `DEC.rd`, the read cursor, the counterpart of a program counter (R44). -/
  rd : Nat
  /-- `DEC.wr`, the write cursor (R45). -/
  wr : Nat
  /-- `DEC.out`, the space OUT of DECODE (R46). -/
  out : Memory
  /-- `DEC.hdr` (R47). -/
  hdr : Header
  /-- The compressed stream `bytes`, the space IN of DECODE (R48, R60). -/
  inp : List Byte
  /-- The result of the call that ended, until the host takes it (R31, R32); `none` is 'no result'. -/
  result : Option DecResult
deriving DecidableEq, Repr

/-- What the host does, one transaction or one taking of a result each (R31, R32). -/
inductive HostAction where
  /-- Issue `ENCODE(hdr, buf)`. -/
  | encode (hdr : Header) (buf : List Byte)
  /-- Issue `DECODE(bytes)`. -/
  | decode (bytes : List Byte)
  /-- Take the result of the encoder's call. -/
  | takeEnc
  /-- Take the result of the decoder's call. -/
  | takeDec
  /-- Do nothing for one step. -/
  | wait
deriving DecidableEq, Repr

/-- A result the host has taken (R31). -/
inductive Delivery where
  | enc (r : EncResult)
  | dec (r : DecResult)
deriving DecidableEq, Repr

/-- The whole block with its host: the three agents of R30. -/
structure State where
  enc : Enc
  dec : Dec
  /-- What the host is going to do, in order (log entry 6). -/
  host : List HostAction
  /-- The results delivered to the host so far, oldest first (R31, log entry 6). -/
  delivered : List Delivery
deriving DecidableEq, Repr

/-- The reasons for which the machine stops. None of them is reachable from `State.reset`: each is raised only in a
state that the spec's own rules exclude, so each is safe (log entry 9). An error of the spec (R310) is no fault of the
machine: it is a next state with the engine in phase ERROR (log entry 7). -/
inductive Fault where
  /-- Raised by the repetition branch of the decoder step (`44_decoder.md` R274) when `DEC.lastOp` holds no opcode that
  produces a pixel, which R274 says never happens. Safe. -/
  | nothingToRepeat
  /-- Raised by the pixel write (`41_pixel_cache.md` R151) when it would leave the OUT space of OUTLEN bytes
  (R60, R70). Safe. -/
  | outputOutOfRange
  /-- Raised by the pixel read (`41_pixel_cache.md` R149) when it would leave the IN space (R60, R70). Safe. -/
  | inputOutOfRange
  /-- Raised at the end of a DECODE call when a byte of OUT holds no value (R46), so that no raw buffer can be
  delivered. Safe. -/
  | outputUnwritten
deriving DecidableEq, Repr

/-- Why an instruction has no meaning. -/
inductive Refusal where
  /-- Raised only by an arm of `exec` whose instruction has no meaning in this model. Safe. No arm raises it now. -/
  | notModelled (mnemonic : String)
deriving DecidableEq, Repr

/-- Every slot holds DEFAULT (R33, R40). -/
def Cache.fresh : Cache := Vector.replicate 64 Pixel.opaqueBlack

/-- The header registers before a call has given them a value: all zero (DESIGN CHOICE, log entries 10 and 11). -/
def Header.unwritten : Header := ⟨0, 0, 0, 0⟩

/-- The encoder at reset (`10_state.md` section 5, `70_reset_and_hazards.md` R340). -/
def Enc.reset : Enc where
  phase := .idle
  cache := Cache.fresh
  prev := Pixel.opaqueBlack
  prevOp := none
  run := 0
  i := 0
  out := []
  hdr := Header.unwritten
  buf := []
  result := none

/-- The decoder at reset (`10_state.md` section 5, `70_reset_and_hazards.md` R340). -/
def Dec.reset : Dec where
  phase := .idle
  cache := Cache.fresh
  prev := Pixel.opaqueBlack
  lastOp := none
  pending := 0
  rd := 0
  wr := 0
  out := []
  hdr := Header.unwritten
  inp := []
  result := none

/-- The block right after reset: both engines idle, nothing asked by the host and nothing delivered. There is no
power-on state other than this one (R341). -/
def State.reset : State := ⟨Enc.reset, Dec.reset, [], []⟩

/-- The state with another encoder. -/
def State.withEnc (s : State) (e : Enc) : State := { s with enc := e }

/-- The state with another decoder. -/
def State.withDec (s : State) (d : Dec) : State := { s with dec := d }

/-- The decoder with another pending run counter. -/
def Dec.withPending (d : Dec) (n : Nat) : Dec := { d with pending := n }

/-- The decoder with another read cursor. -/
def Dec.withRd (d : Dec) (n : Nat) : Dec := { d with rd := n }

end Sys2Proof.Machine
end

