-- ==== Sys2Proof/Machine/PixelUnit.lean ====
section
/-! DEFINITION. The pixel unit and the history cache (`41_pixel_cache.md`): packing (R143), unpacking (R144), the
hash (R145), and the cache's two operations (R147). The equality comparator (R142) is equality of `Pixel`. -/

namespace Sys2Proof.Machine

/-- `rgba(p)`: r in bits 31:24, g in 23:16, b in 15:8, a in 7:0 (R143). -/
def rgba (p : Pixel) : BitVec 32 := p.r ++ p.g ++ p.b ++ p.a

/-- `from(v)`, the unpacking (R144). -/
def fromRgba (v : BitVec 32) : Pixel :=
  ⟨v.extractLsb' 24 8, v.extractLsb' 16 8, v.extractLsb' 8 8, v.extractLsb' 0 8⟩

/-- `hash(p)`: (3r + 5g + 7b + 11a) mod 64 (R145). -/
def pixelHash (p : Pixel) : Slot :=
  BitVec.ofNat 6 (p.r.toNat * 3 + p.g.toNat * 5 + p.b.toNat * 7 + p.a.toNat * 11)

/-- `C[k]` (`00_scope.md` R12). -/
def Cache.read (c : Cache) (k : Slot) : Pixel := c.get k.toFin

/-- `C[k] <- p` (`00_scope.md` R12). -/
def Cache.write (c : Cache) (k : Slot) (p : Pixel) : Cache := c.set k.toFin p k.toFin.isLt

/-- `store(p)`: the pixel goes to the slot of its hash, over whatever that held (R147). -/
def Cache.store (c : Cache) (p : Pixel) : Cache := c.write (pixelHash p) p

/-- `lookup(p)`: the slot of the pixel's hash, and whether it holds that very pixel (R147). -/
def Cache.lookup (c : Cache) (p : Pixel) : Slot × Bool := (pixelHash p, decide (c.read (pixelHash p) = p))

end Sys2Proof.Machine
end

