-- ==== Sys2Proof/Machine/Ops.lean ====
section
/-! DEFINITION. The shared operations: the header's sizes, reads and writes of OUT and IN, `Emit`, the pixel read
and write (`41_pixel_cache.md` R149, R151), the effect of a pixel-producing opcode (`44_decoder.md` R273), and the
block's counterpart of exceptions: raising an error (`60_exceptions.md` R315), taking a call (R340) and giving up a
result (`10_state.md` R32). -/

namespace Sys2Proof.Machine

/-- The outcomes of this machine. -/
abbrev Out (σ : Type) := Host.Outcome σ Fault Refusal

/-- One outcome after another: a fault or a refusal of the first is the outcome. -/
def andThen {σ τ : Type} (o : Out σ) (f : σ → Out τ) : Out τ :=
  match o with
  | .next s => f s
  | .fault r => .fault r
  | .refused r => .refused r

/-- N = width * height, computed exactly (`40_header.md` R120, `00_scope.md` R7). -/
def Header.pixels (h : Header) : Nat := h.width.toNat * h.height.toNat

/-- OUTLEN = width * height * channels, computed exactly (R120, R7). -/
def Header.outLen (h : Header) : Nat := h.width.toNat * h.height.toNat * h.channels.toNat

/-- What an offset of OUT that nothing has written reads as: no value (R46). -/
def Memory.unlisted : Option Byte := none

/-- The byte at an offset of OUT. -/
def Memory.read : Memory → Nat → Option Byte
  | [], _ => Memory.unlisted
  | (b, v) :: rest, a => if a = b then some v else Memory.read rest a

/-- `MemWrite(OUT, a, 1, v)` (`00_scope.md` R12); the list stays in rising order of offsets. -/
def Memory.write : Memory → Nat → Byte → Memory
  | [], a, v => [(a, v)]
  | (b, u) :: rest, a, v =>
    if a < b then (a, v) :: (b, u) :: rest
    else if a = b then (a, v) :: rest
    else (b, u) :: Memory.write rest a v

/-- The canonical form: offsets strictly rising. No listed offset reads as an unlisted one does, because a listed
offset has a byte and an unlisted one has no value. -/
abbrev Memory.wf (m : Memory) : Prop := m.Pairwise fun x y => x.1 < y.1

/-- The bytes at the offsets from `a`, `n` of them, if every one holds a value. -/
def Memory.readBytes (m : Memory) (a : Nat) : Nat → Option (List Byte)
  | 0 => some []
  | n + 1 =>
    match m.read a, Memory.readBytes m (a + 1) n with
    | some v, some vs => some (v :: vs)
    | _, _ => none

/-- `MemWrite` of consecutive bytes. -/
def Memory.writeBytes : Memory → Nat → List Byte → Memory
  | m, _, [] => m
  | m, a, v :: vs => Memory.writeBytes (m.write a v) (a + 1) vs

/-- `Emit(s)`: append to the encoder's output (`00_scope.md` R12). -/
def Enc.emit (e : Enc) (bs : List Byte) : Enc := { e with out := e.out ++ bs }

/-- `PixelIn(i)` (R149): pixel `i` of a raw buffer of `channels` bytes a pixel, alpha 255 unless `channels` is 4.
`none` where the read would leave the buffer. -/
def pixelIn (channels : Byte) (buf : List Byte) (i : Nat) : Option Pixel :=
  let base := i * channels.toNat
  match buf[base]?, buf[base + 1]?, buf[base + 2]? with
  | some r, some g, some b =>
    if channels = 4 then
      match buf[base + 3]? with
      | some a => some ⟨r, g, b, a⟩
      | none => none
    else some ⟨r, g, b, 255⟩
  | _, _, _ => none

/-- The bytes of a pixel in a raw buffer, in channel order (R151, `20_memory.md` R62). -/
def pixelBytes (channels : Byte) (p : Pixel) : List Byte :=
  if channels = 4 then [p.r, p.g, p.b, p.a] else [p.r, p.g, p.b]

/-- `PixelOut(w, p)` (R151). `none` where the write would leave the OUT space of OUTLEN bytes (R60, R70). -/
def pixelOut (h : Header) (out : Memory) (w : Nat) (p : Pixel) : Option Memory :=
  if w + (pixelBytes h.channels p).length ≤ h.outLen then some (out.writeBytes w (pixelBytes h.channels p))
  else none

/-- The registers after pixel `px` has been produced by `op` and written, leaving `out` (R273, R277 to R279). -/
def Dec.produced (d : Dec) (op : Instr) (px : Pixel) (out : Memory) : Dec :=
  { d with
    out := out
    wr := d.wr + d.hdr.channels.toNat
    cache := d.cache.store px
    prev := px
    lastOp := some op }

/-- What every pixel-producing opcode does with its pixel (R273): write it at the write cursor, advance the cursor,
store it in the cache unconditionally, and keep it and its opcode. -/
def produce (op : Instr) (px : Pixel) (s : State) : Out State :=
  match pixelOut s.dec.hdr s.dec.out s.dec.wr px with
  | some out => .next (s.withDec (s.dec.produced op px out))
  | none => .fault .outputOutOfRange

/-- `raise E(info)` in the decoder (`00_scope.md` R12, `60_exceptions.md` R315): the call ends, the phase is ERROR, the
error with its detail is the result, and OUT has no value. No register is saved and nothing is vectored (R316); the
other registers stay (DESIGN CHOICE, log entry 8). -/
def Dec.raise (d : Dec) (e : CallError) : Dec :=
  { d with phase := .error, out := [], result := some (.error e) }

/-- `raise ValidationError(reason)` in the encoder, the only error it has (R31, R315). -/
def Enc.raise (e : Enc) (r : ValidationReason) : Enc :=
  { e with phase := .error, out := [], result := some (.validationError r) }

/-- The decoder's call ends with its success result (`10_state.md` R32). -/
def Dec.finish (d : Dec) (raw : List Byte) : Dec :=
  { d with phase := .done, result := some (.ok d.hdr raw) }

/-- The encoder's call ends with its success result: exactly `ENC.out` (`10_state.md` R32, R38). -/
def Enc.finish (e : Enc) : Enc := { e with phase := .done, result := some (.ok e.out) }

/-- The encoder takes an ENCODE call: reset, the call's configuration, phase ACTIVE (`10_state.md` R32, R39,
`70_reset_and_hazards.md` R340). -/
def Enc.accept (hdr : Header) (buf : List Byte) : Enc :=
  { Enc.reset with phase := .active, hdr := hdr, buf := buf }

/-- The decoder takes a DECODE call (`10_state.md` R32, R48, `70_reset_and_hazards.md` R340). -/
def Dec.accept (bytes : List Byte) : Dec :=
  { Dec.reset with phase := .active, inp := bytes }

/-- The host has taken the encoder's result: back to IDLE (R32, `60_exceptions.md` R315); log entry 17. -/
def Enc.release (e : Enc) : Enc := { e with phase := .idle, result := none }

/-- The host has taken the decoder's result: back to IDLE (R32, `60_exceptions.md` R315). -/
def Dec.release (d : Dec) : Dec := { d with phase := .idle, result := none }

end Sys2Proof.Machine
end

