-- ==== Sys2Proof/Machine/CacheRef.lean ====
section
/-! DEFINITION. The meaning of INDEX (`42_opcodes.md` R177). -/

namespace Sys2Proof.Machine

/-- `Apply(INDEX(k))`: the whole cached pixel, alpha included (R177). -/
def applyIndex (k : Slot) (c : Cache) : Pixel := c.read k

/-- INDEX(k) in the decoder. -/
def execIndex (k : Slot) (s : State) : Out State :=
  produce (.index k) (applyIndex k s.dec.cache) s

end Sys2Proof.Machine
end

