-- ==== Sys2Proof/Machine/Operands.lean ====
section
/-! DEFINITION. Wraparound arithmetic (`00_scope.md` R10) and the quantities the opcode fields carry: each field
is an unsigned number with a bias (`30_encoding.md` R99). Both directions are here, once: from a field to the
quantity (the decoder's), and from a quantity to the field (the encoder's). -/

namespace Sys2Proof.Machine

/-- `wrap8(v) = v mod 256`, for negative `v` too (R10). -/
def wrap8 (v : Int) : Byte := BitVec.ofInt 8 v

/-- `s8(v)`: the signed 8-bit reading of `v`, in -128..127 (R10). -/
def s8 (v : Int) : Int :=
  let y := v % 256
  if y ≥ 128 then y - 256 else y

/-- A channel moved by a signed amount, with 8-bit wraparound (R173). -/
def addWrap (c : Byte) (delta : Int) : Byte := wrap8 (c.toNat + delta)

/-- The signed 8-bit difference of two channels (`43_encoder.md` R236). -/
def subSigned (c d : Byte) : Int := s8 ((c.toNat : Int) - d.toNat)

/-- DIFF: delta = field - 2 (R99). -/
def diffDelta (f : BitVec 2) : Int := f.toNat - 2

/-- LUMA: vg = dg - 32 (R99). -/
def lumaGreen (dg : BitVec 6) : Int := dg.toNat - 32

/-- LUMA: vrg = drg - 8, and vbg = dbg - 8 (R99). -/
def lumaCross (f : BitVec 4) : Int := f.toNat - 8

/-- RUN: length = n + 1 (R99). -/
def runLength (n : BitVec 6) : Nat := n.toNat + 1

/-- The DIFF field of a delta in -2..1 (`43_encoder.md` R237). -/
def diffField (v : Int) : BitVec 2 := BitVec.ofInt 2 (v + 2)

/-- The LUMA green field of a delta in -32..31 (`43_encoder.md` R238). -/
def lumaGreenField (v : Int) : BitVec 6 := BitVec.ofInt 6 (v + 32)

/-- The LUMA cross field of a difference in -8..7 (`43_encoder.md` R238). -/
def lumaCrossField (v : Int) : BitVec 4 := BitVec.ofInt 4 (v + 8)

/-- The RUN field of a run of 1 to 62 (`43_encoder.md` R242). -/
def runField (run : Nat) : BitVec 6 := BitVec.ofNat 6 (run - 1)

end Sys2Proof.Machine
end

