-- ==== Sys2Proof/Machine/Delta.lean ====
section
/-! DEFINITION. The meanings of the delta opcodes DIFF (`42_opcodes.md` R180) and LUMA (R183). Both take alpha from
the previous pixel. -/

namespace Sys2Proof.Machine

/-- `Apply(DIFF(dr, dg, db))` (R180). -/
def applyDiff (dr dg db : BitVec 2) (prev : Pixel) : Pixel :=
  ⟨addWrap prev.r (diffDelta dr), addWrap prev.g (diffDelta dg), addWrap prev.b (diffDelta db), prev.a⟩

/-- `Apply(LUMA(dg, drg, dbg))` (R183): red and blue move by the green delta plus their own difference from it. -/
def applyLuma (dg : BitVec 6) (drg dbg : BitVec 4) (prev : Pixel) : Pixel :=
  let vg := lumaGreen dg
  ⟨addWrap prev.r (vg + lumaCross drg), addWrap prev.g vg, addWrap prev.b (vg + lumaCross dbg), prev.a⟩

/-- DIFF(dr, dg, db) in the decoder. -/
def execDiff (dr dg db : BitVec 2) (s : State) : Out State :=
  produce (.diff dr dg db) (applyDiff dr dg db s.dec.prev) s

/-- LUMA(dg, drg, dbg) in the decoder. -/
def execLuma (dg : BitVec 6) (drg dbg : BitVec 4) (s : State) : Out State :=
  produce (.luma dg drg dbg) (applyLuma dg drg dbg s.dec.prev) s

end Sys2Proof.Machine
end

