-- ==== Sys2Proof/Machine/Literal.lean ====
section
/-! DEFINITION. The meanings of the literal opcodes RGB (`42_opcodes.md` R193) and RGBA (R196). -/

namespace Sys2Proof.Machine

/-- `Apply(RGB(r, g, b))`: alpha is the fixed opaque value 255, never the previous pixel's (R193). -/
def applyRgb (r g b : Byte) : Pixel := ⟨r, g, b, 255⟩

/-- `Apply(RGBA(r, g, b, a))` (R196). -/
def applyRgba (r g b a : Byte) : Pixel := ⟨r, g, b, a⟩

/-- RGB(r, g, b) in the decoder. -/
def execRgb (r g b : Byte) (s : State) : Out State :=
  produce (.rgb r g b) (applyRgb r g b) s

/-- RGBA(r, g, b, a) in the decoder. -/
def execRgba (r g b a : Byte) (s : State) : Out State :=
  produce (.rgba r g b a) (applyRgba r g b a) s

end Sys2Proof.Machine
end

