-- ==== Sys2Proof/Machine/Run.lean ====
section
/-! DEFINITION. The opcodes that produce no pixel: RUN (`42_opcodes.md` R186, `44_decoder.md` R276) and NONE
(`42_opcodes.md` R198, R199). -/

namespace Sys2Proof.Machine

/-- RUN(n) in the decoder, with `DEC.rd` already past its one byte: load the pending run counter with n + 1, or raise
ParseError(RUN_WITHOUT_OPCODE) at the RUN's offset where there is no opcode to repeat (R276). An error is precise
(`60_exceptions.md` R314), so there the cursor stands at the RUN again, as it did after the last completed step (log
entry 8). -/
def execRun (n : BitVec 6) (s : State) : Out State :=
  match s.dec.lastOp with
  | some _ => .next (s.withDec (s.dec.withPending (runLength n)))
  | none => .next (s.withDec ((s.dec.withRd (s.dec.rd - 1)).raise (.parse .runWithoutOpcode (s.dec.rd - 1))))

/-- NONE in the decoder: a fatal ParseError(NONE_TAG) at the offset of the tag byte, where `DEC.rd` still stands
(R198, R273). -/
def execNone (s : State) : Out State :=
  .next (s.withDec (s.dec.raise (.parse .noneTag s.dec.rd)))

end Sys2Proof.Machine
end

