-- ==== Sys2Proof/Machine/Framing.lean ====
section
/-! DEFINITION. The framing of the compressed stream (`40_header.md`): header write (R122) and read (R123), the
validation of both engines in its order (R125, R126), and the end marker (R127). -/

namespace Sys2Proof.Machine

/-- The 4 bytes in order. -/
def Magic.toBytes (m : Magic) : List Byte := [m.m0, m.m1, m.m2, m.m3]

/-- `be32(v)`, most significant byte first (`00_scope.md` R11). -/
def be32 (v : U32) : List Byte :=
  [v.extractLsb' 24 8, v.extractLsb' 16 8, v.extractLsb' 8 8, v.extractLsb' 0 8]

/-- `rd_be32` of four bytes (`00_scope.md` R11). -/
def rdBe32 (b0 b1 b2 b3 : Byte) : U32 := b0 ++ b1 ++ b2 ++ b3

/-- The length of the header (`00_scope.md` R6). -/
def headerLength : Nat := 14

/-- `HeaderBytes(hdr)` (R122). -/
def headerBytes (m : Magic) (h : Header) : List Byte :=
  Magic.toBytes m ++ be32 h.width ++ be32 h.height ++ [h.channels] ++ [h.colorspace]

/-- The magic found and the header fields, at the offsets of R121 and R123; `none` where fewer than 14 bytes are
there to read. -/
def readHeader : List Byte → Option (Magic × Header)
  | m0 :: m1 :: m2 :: m3 :: w0 :: w1 :: w2 :: w3 :: h0 :: h1 :: h2 :: h3 :: ch :: cs :: _ =>
    some (⟨m0, m1, m2, m3⟩, ⟨rdBe32 w0 w1 w2 w3, rdBe32 h0 h1 h2 h3, ch, cs⟩)
  | _ => none

/-- `END_MARKER`: eight zero bytes, then 0x01 (R127). -/
def endMarker : List Byte := [0x00, 0x00, 0x00, 0x00, 0x00, 0x00, 0x00, 0x00, 0x01]

/-- Whether a raw buffer of `n` bytes is larger than `MAX_OUTPUT_BYTES` (`00_scope.md` R7). -/
def Params.exceeded (P : Params) (n : Nat) : Bool :=
  match P.maxOutputBytes with
  | some m => decide (m < n)
  | none => false

/-- The field checks that both engines share, in the order of R125 and R126: width, height, channels, colorspace,
capacity. -/
def fieldError (P : Params) (h : Header) : Option ValidationReason :=
  if h.width = 0 then some .widthZero
  else if h.height = 0 then some .heightZero
  else if h.channels ≠ 3 ∧ h.channels ≠ 4 then some .badChannels
  else if h.colorspace ≠ 0 ∧ h.colorspace ≠ 1 then some .badColorspace
  else if Params.exceeded P h.outLen then some .capacity
  else none

/-- ENCODE validation (R125): the first check that fails. -/
def encodeError (P : Params) (h : Header) (buf : List Byte) : Option ValidationReason :=
  if buf.length = 0 then some .empty
  else match fieldError P h with
    | some r => some r
    | none => if buf.length ≠ h.outLen then some .lengthMismatch else none

/-- DECODE validation and header read (R123, R126): the first check that fails, or the header. -/
def decodeHeader (P : Params) (bytes : List Byte) : Except CallError Header :=
  if bytes.length = 0 then .error (.validation .empty)
  else match readHeader bytes with
    | none => .error (.validation .shortHeader)
    | some (found, h) =>
      if found ≠ P.magic then .error (.magicMismatch P.magic found)
      else match fieldError P h with
        | some r => .error (.validation r)
        | none => .ok h

/-- R124: when a header is valid. -/
def Header.valid (h : Header) : Prop :=
  0 < h.width.toNat ∧ 0 < h.height.toNat ∧ (h.channels = 3 ∨ h.channels = 4) ∧
    (h.colorspace = 0 ∨ h.colorspace = 1)

end Sys2Proof.Machine
end

