-- ==== Sys2Proof/Machine/Decoder.lean ====
section
/-! DEFINITION. The decoder engine (`44_decoder.md`): the step (R273), the end of the call (R270, R280), and one
move of an ACTIVE decoder (`10_state.md` R32). -/

namespace Sys2Proof.Machine

/-- Header validation and read; `DEC.rd` is 14 once the header has been read (`40_header.md` R123, R126, R271). -/
def decBegin (P : Params) (d : Dec) : Dec :=
  match decodeHeader P d.inp with
  | .error e => d.raise e
  | .ok h => { d with hdr := h, rd := headerLength }

/-- The repetition branch of `DecStep()`: apply `DEC.lastOp` again, reading no input (R274). -/
def decRepeat (s : State) : Out State :=
  match s.dec.lastOp with
  | some op =>
    if op.producesPixel then exec op (s.withDec (s.dec.withPending (s.dec.pending - 1)))
    else .fault .nothingToRepeat
  | none => .fault .nothingToRepeat

/-- The parsing branch of `DecStep()`: fetch at the read cursor, advance it, execute (R275). A parsed NONE is
executed at the cursor it was found at (R273). -/
def decParse (s : State) : Out State :=
  match decode (s.dec.inp.drop s.dec.rd) with
  | .underrun => .next (s.withDec (s.dec.raise (.parse .underrun s.dec.rd)))
  | .ok i n =>
    if i = .none then exec i s
    else exec i (s.withDec (s.dec.withRd (s.dec.rd + n)))

/-- `DecStep()` (R273). -/
def decStep (s : State) : Out State :=
  if s.dec.pending > 0 then decRepeat s else decParse s

/-- The end of the call, once the output is full (R270, R280): OVERRUN where repetitions are still pending, else
the header and the raw buffer. -/
def decEnd (d : Dec) : Out Dec :=
  if d.pending > 0 then .next (d.raise (.parse .overrun d.rd))
  else match d.out.readBytes 0 d.hdr.outLen with
    | some raw => .next (d.finish raw)
    | none => .fault .outputUnwritten

/-- One move of an ACTIVE decoder (R270): validation and the header while `DEC.rd` has its reset value, then one loop
iteration, then the end of the call (log entry 12). -/
def decTick (P : Params) (s : State) : Out State :=
  if s.dec.rd = 0 then .next (s.withDec (decBegin P s.dec))
  else if s.dec.wr < s.dec.hdr.outLen then decStep s
  else andThen (decEnd s.dec) fun d => .next (s.withDec d)

/-- The decoder ready to fetch `bytes` as its next opcode. Where it already stands in the loop of a call, only the
bytes at the read cursor change and no repetition is pending; else it stands at the first opcode of a call for one
4-channel pixel. Cache, previous pixel and previous opcode stay (log entry 16). -/
def Dec.withOpcodeBytes (d : Dec) (bytes : List Byte) : Dec :=
  let d : Dec :=
    if d.phase = .active ∧ d.rd ≠ 0 ∧ d.wr < d.hdr.outLen then { d with pending := 0 }
    else { d with
      phase := .active
      result := none
      pending := 0
      rd := headerLength
      wr := 0
      out := []
      hdr := ⟨1, 1, 4, 0⟩ }
  { d with
    inp := (d.inp ++ List.replicate d.rd 0).take d.rd ++ bytes ++ d.inp.drop (d.rd + longestOpcode) }

end Sys2Proof.Machine
end

