-- ==== Sys2Proof/Machine/Encoder.lean ====
section
/-! DEFINITION. The encoder engine (`43_encoder.md`): the opcode selector (R232 to R239), the run-length detector
(R241 to R243), one encoder step (R231), and one move of an ACTIVE encoder (R230, `10_state.md` R32). -/

namespace Sys2Proof.Machine

/-- The tests of the selector after a cache miss: alpha change, DIFF, LUMA, and RGB where none applies (R235 to R239). -/
def selectMissed (prev px : Pixel) : Instr :=
  if px.a ≠ prev.a then .rgba px.r px.g px.b px.a
  else
    let vr := subSigned px.r prev.r
    let vg := subSigned px.g prev.g
    let vb := subSigned px.b prev.b
    if (-2 ≤ vr ∧ vr ≤ 1) ∧ (-2 ≤ vg ∧ vg ≤ 1) ∧ (-2 ≤ vb ∧ vb ≤ 1) then
      .diff (diffField vr) (diffField vg) (diffField vb)
    else
      let vrg := s8 (vr - vg)
      let vbg := s8 (vb - vg)
      if (-8 ≤ vrg ∧ vrg ≤ 7) ∧ (-32 ≤ vg ∧ vg ≤ 31) ∧ (-8 ≤ vbg ∧ vbg ≤ 7) then
        .luma (lumaGreenField vg) (lumaCrossField vrg) (lumaCrossField vbg)
      else .rgb px.r px.g px.b

/-- `Select(px)` (R232): the chosen opcode and the cache after it. A hit is INDEX and leaves the cache (R233); every
miss stores the pixel (R234). -/
def select (c : Cache) (prev px : Pixel) : Instr × Cache :=
  if (c.lookup px).2 then (.index (c.lookup px).1, c)
  else (selectMissed prev px, c.store px)

/-- The flush of a pending run as one RUN (R242, R243). -/
def Enc.flushRun (e : Enc) : Enc := { e.emit (encode (.run (runField e.run))) with run := 0 }

/-- `RunFold(op, i)` on a repeat (R242); `last` says whether pixel i is the last of the buffer. -/
def Enc.foldRepeat (last : Bool) (e : Enc) : Enc :=
  let e := { e with run := e.run + 1 }
  if e.run = 62 ∨ last = true then e.flushRun else e

/-- `RunFold(op, i)` where pixel i is not a repeat (R243). -/
def Enc.foldOther (op : Instr) (e : Enc) : Enc :=
  (if e.run > 0 then e.flushRun else e).emit (encode op)

/-- `RunFold(op, i)`, the run-length detector with the repeat test of R241. -/
def Enc.runFold (op : Instr) (last : Bool) (e : Enc) : Enc :=
  if e.prevOp = some op then e.foldRepeat last else e.foldOther op

/-- What a step does with pixel `px` (R231): select, keep the pixel, fold the run, keep the chosen opcode, advance. -/
def Enc.takePixel (e : Enc) (px : Pixel) : Enc :=
  let (op, cache) := select e.cache e.prev px
  let e := { e with cache := cache, prev := px }
  let e := e.runFold op (decide (e.i + 1 = e.hdr.pixels))
  { e with prevOp := some op, i := e.i + 1 }

/-- `EncStep()` (R231). -/
def encStep (e : Enc) : Out Enc :=
  match pixelIn e.hdr.channels e.buf e.i with
  | some px => .next (e.takePixel px)
  | none => .fault .inputOutOfRange

/-- Validation, and the header as the first emission (`40_header.md` R122, R125). -/
def encBegin (P : Params) (e : Enc) : Enc :=
  match encodeError P e.hdr e.buf with
  | some r => e.raise r
  | none => e.emit (headerBytes P.magic e.hdr)

/-- One move of an ACTIVE encoder (R230): validation and the header while nothing has been emitted, then one pixel,
then the end marker and the success result (log entry 12). -/
def encTick (P : Params) (e : Enc) : Out Enc :=
  if e.out = [] then .next (encBegin P e)
  else if e.i < e.hdr.pixels then encStep e
  else .next (e.emit endMarker).finish

end Sys2Proof.Machine
end

