-- ==== Sys2Proof/Machine/HostPort.lean ====
section
/-! DEFINITION. The host's two transactions and the taking of results (`10_state.md` R30 to R32). -/

namespace Sys2Proof.Machine

/-- The host's next action, if the engine it concerns is ready for it: a call is taken by an IDLE engine, and a result
is taken from an engine that is DONE or in ERROR (R32). An action that must wait leaves everything as it is (log
entry 6). An ACTIVE engine is never touched: a call cannot be interrupted (R30). -/
def hostMove (s : State) : State :=
  match s.host with
  | [] => s
  | .encode hdr buf :: rest =>
    if s.enc.phase = .idle then { s with enc := Enc.accept hdr buf, host := rest } else s
  | .decode bytes :: rest =>
    if s.dec.phase = .idle then { s with dec := Dec.accept bytes, host := rest } else s
  | .takeEnc :: rest =>
    if s.enc.phase = .done ∨ s.enc.phase = .error then
      match s.enc.result with
      | some r => { s with enc := s.enc.release, host := rest, delivered := s.delivered ++ [.enc r] }
      | none => s
    else s
  | .takeDec :: rest =>
    if s.dec.phase = .done ∨ s.dec.phase = .error then
      match s.dec.result with
      | some r => { s with dec := s.dec.release, host := rest, delivered := s.delivered ++ [.dec r] }
      | none => s
    else s
  | .wait :: rest => { s with host := rest }

end Sys2Proof.Machine
end

