-- ==== Sys2Proof/Machine/Engines.lean ====
section
/-! DEFINITION. How the three agents of `10_state.md` R30 share one step of the machine (log entry 5): the host
makes one move, and each engine that is ACTIVE makes one move. An engine that is not ACTIVE stands still. -/

namespace Sys2Proof.Machine

/-- The host's move and the encoder's. -/
def encMove (P : Params) (s : State) : Out State :=
  if s.enc.phase = .active then andThen (encTick P s.enc) fun e => .next ((hostMove s).withEnc e)
  else .next (hostMove s)

/-- The decoder's move in state `s`; `active` says whether it was ACTIVE when the step began. -/
def decMove (P : Params) (active : Bool) (s : State) : Out State :=
  if active then decTick P s else .next s

/-- One step of the machine whose open parameters are `P`. -/
def stepWith (P : Params) (s : State) : Out State :=
  andThen (encMove P s) (decMove P (decide (s.dec.phase = .active)))

end Sys2Proof.Machine
end

