-- ==== Sys2Proof/Machine/Step.lean ====
section
/-! DEFINITION. The step of the machine, with the platform's parameters, and the state that fetches a given
instruction next. -/

namespace Sys2Proof.Machine

/-- One step of the block: the machine of `Machine/Engines.lean` with this block's parameters. -/
def step (s : State) : Host.Outcome State Fault Refusal := stepWith Config.params s

/-- `s` with the instruction whose bits are `w` where the decoder fetches its next opcode (log entry 16). -/
def State.withFetchWord (s : State) (nbits w : Nat) : State :=
  s.withDec (s.dec.withOpcodeBytes (tableBytes nbits w))

end Sys2Proof.Machine
end

