-- ==== Sys2Proof/Machine/Flags.lean ====
section
/-! DEFINITION. Status. The block has no flags, condition codes or status registers (`10_state.md` R50, R51;
`42_opcodes.md` R174): the only status is the phase register and the result of a call. This file gives the numeric
codes of the results (`60_exceptions.md` R310, R311, R313). -/

namespace Sys2Proof.Machine

/-- R311's code column. -/
def ValidationReason.code : ValidationReason → Nat
  | .empty => 1
  | .shortHeader => 2
  | .widthZero => 3
  | .heightZero => 4
  | .badChannels => 5
  | .badColorspace => 6
  | .lengthMismatch => 7
  | .capacity => 8

/-- R313's code column. -/
def ParseReason.code : ParseReason → Nat
  | .noneTag => 1
  | .underrun => 2
  | .runWithoutOpcode => 3
  | .overrun => 4

/-- R310's code column. -/
def CallError.code : CallError → Nat
  | .validation _ => 1
  | .magicMismatch _ _ => 2
  | .parse _ _ => 3

/-- The code of an ENCODE result; `Ok` is 0 (R310). -/
def EncResult.code : EncResult → Nat
  | .ok _ => 0
  | .validationError r => (CallError.validation r).code

/-- The code of a DECODE result; `Ok` is 0 (R310). -/
def DecResult.code : DecResult → Nat
  | .ok _ _ => 0
  | .error e => e.code

end Sys2Proof.Machine
end

