-- ==== Sys2Proof/Safety.lean ====
section
/-! DEFINITION. What claims are stated in: runs of several steps, the invariants that hold along every run from
reset, what producing a pixel does to the whole state, and the condition under which a stream decodes exactly. -/

namespace Sys2Proof.Safety

open Sys2Proof.Machine

/-- `k` steps of the machine with parameters `P`, stopping at the first fault or refusal. -/
def runWith (P : Params) : Nat → State → Out State
  | 0, s => .next s
  | k + 1, s => andThen (stepWith P s) (runWith P k)

/-- The decoder's part of a step from `s` makes the decoder `d`, whatever the host and the encoder do in it. -/
def decBecomes (P : Params) (s : State) (d : Dec) : Prop :=
  ∀ h, encMove P s = .next h → stepWith P s = .next (h.withDec d)

/-- The encoder's part of a step from `s` makes the encoder `e`; the decoder then makes its own move. -/
def encBecomes (P : Params) (s : State) (e : Enc) : Prop :=
  stepWith P s = decMove P (decide (s.dec.phase = .active)) ((hostMove s).withEnc e)

/-- The decoder stands at the beginning of an iteration of its loop (`44_decoder.md` R270, R272). -/
def inDecLoop (d : Dec) : Prop := d.phase = .active ∧ d.rd ≠ 0 ∧ d.wr < d.hdr.outLen

/-- The encoder stands at the beginning of an iteration of its loop (`43_encoder.md` R230). -/
def inEncLoop (e : Enc) : Prop := e.phase = .active ∧ e.out ≠ [] ∧ e.i < e.hdr.pixels

/-- The number of bytes `PixelOut` writes (`41_pixel_cache.md` R151). -/
def pixelSize (h : Header) : Nat := if h.channels = 4 then 4 else 3

/-- The pixel that the decoder is about to produce fits the OUT space. -/
def pixelFits (d : Dec) : Prop := d.wr + pixelSize d.hdr ≤ d.hdr.outLen

/-- From `s` to `t`, opcode `op` has produced pixel `px` (`44_decoder.md` R273, R277 to R279) and nothing else has
happened: the channels stand at the write cursor and every other byte of OUT is as before, the cursor has moved on by
`channels`, the slot of the pixel's hash holds the pixel and every other slot is as before, `prev` and `lastOp` are the
pixel and its opcode, and every other register of either engine and the host are as before. -/
structure Produces (op : Instr) (px : Pixel) (s t : State) : Prop where
  red : t.dec.out.read s.dec.wr = some px.r
  green : t.dec.out.read (s.dec.wr + 1) = some px.g
  blue : t.dec.out.read (s.dec.wr + 2) = some px.b
  alpha : s.dec.hdr.channels = 4 → t.dec.out.read (s.dec.wr + 3) = some px.a
  otherBytes : ∀ a, a < s.dec.wr ∨ s.dec.wr + pixelSize s.dec.hdr ≤ a → t.dec.out.read a = s.dec.out.read a
  wr : t.dec.wr = s.dec.wr + s.dec.hdr.channels.toNat
  cache : ∀ k, t.dec.cache.read k = if k = pixelHash px then px else s.dec.cache.read k
  prev : t.dec.prev = px
  lastOp : t.dec.lastOp = some op
  phase : t.dec.phase = s.dec.phase
  pending : t.dec.pending = s.dec.pending
  rd : t.dec.rd = s.dec.rd
  hdr : t.dec.hdr = s.dec.hdr
  inp : t.dec.inp = s.dec.inp
  result : t.dec.result = s.dec.result
  enc : t.enc = s.enc
  host : t.host = s.host
  delivered : t.delivered = s.delivered

/-- From `s` to `t`, the decoder has raised `e` (`60_exceptions.md` R315) and nothing else has happened: phase ERROR,
the error with its detail as the result, no byte of OUT with a value, and every other register as before. -/
structure Raises (e : CallError) (s t : State) : Prop where
  phase : t.dec.phase = .error
  result : t.dec.result = some (.error e)
  out : ∀ a, t.dec.out.read a = none
  cache : t.dec.cache = s.dec.cache
  prev : t.dec.prev = s.dec.prev
  lastOp : t.dec.lastOp = s.dec.lastOp
  pending : t.dec.pending = s.dec.pending
  rd : t.dec.rd = s.dec.rd
  wr : t.dec.wr = s.dec.wr
  hdr : t.dec.hdr = s.dec.hdr
  inp : t.dec.inp = s.dec.inp
  enc : t.enc = s.enc
  host : t.host = s.host
  delivered : t.delivered = s.delivered

/-- Every slot holds DEFAULT or a pixel of its own hash (`41_pixel_cache.md` R148). -/
def CacheInv (c : Cache) : Prop := ∀ k : Slot, c.read k = Pixel.opaqueBlack ∨ pixelHash (c.read k) = k

/-- The invariant of the encoder. -/
structure EncInv (e : Enc) : Prop where
  /-- R148. -/
  cache : CacheInv e.cache
  /-- The previous pixel is in the cache (`43_encoder.md` R246). -/
  prevHits : e.cache.read (pixelHash e.prev) = e.prev
  /-- `ENC.prevOp` is ⊥ or an opcode that produces a pixel (R35). -/
  prevOp : ∀ op, e.prevOp = some op → op.producesPixel = true
  /-- Between steps `ENC.run` is 0..61 (R36). -/
  run : e.run ≤ 61
  /-- Only repeats are pending, and a repeat repeats an opcode (R241). -/
  runOp : 0 < e.run → e.prevOp ≠ none
  /-- An engine that is IDLE or ACTIVE has no result (R32). -/
  noResult : e.phase = .idle ∨ e.phase = .active → e.result = none
  /-- DONE holds a success result (R32). -/
  doneResult : e.phase = .done → ∃ bs, e.result = some (.ok bs)
  /-- ERROR holds an error (R32). -/
  errorResult : e.phase = .error → ∃ r, e.result = some (.validationError r)
  /-- An ACTIVE encoder that has emitted nothing has every register at reset (R340). -/
  fresh : e.phase = .active → e.out = [] → e = Enc.accept e.hdr e.buf
  /-- An ACTIVE encoder that has emitted its header works on a valid call (R125), within the buffer (R37), and has no
  repeat pending after the last pixel (R249). -/
  loop : e.phase = .active → e.out ≠ [] →
    e.hdr.valid ∧ e.buf.length = e.hdr.outLen ∧ e.i ≤ e.hdr.pixels ∧ (e.i = e.hdr.pixels → e.run = 0)

/-- The invariant of the decoder. -/
structure DecInv (d : Dec) : Prop where
  /-- R148. -/
  cache : CacheInv d.cache
  /-- The previous pixel is in the cache (`44_decoder.md` R278, R279). -/
  prevHits : d.cache.read (pixelHash d.prev) = d.prev
  /-- `DEC.lastOp` is ⊥ or an opcode that produces a pixel (R42). -/
  lastOp : ∀ op, d.lastOp = some op → op.producesPixel = true
  /-- `DEC.pending` is 0..62 (R43). -/
  pending : d.pending ≤ 62
  /-- Repetitions are pending only where there is an opcode to repeat (`44_decoder.md` R274). -/
  pendingOp : 0 < d.pending → d.lastOp ≠ none
  /-- OUT keeps its canonical form. -/
  outWf : d.out.wf
  /-- An engine that is IDLE or ACTIVE has no result (R32). -/
  noResult : d.phase = .idle ∨ d.phase = .active → d.result = none
  /-- DONE holds a success result: a valid header and a raw buffer of OUTLEN bytes (R31). -/
  doneResult : d.phase = .done →
    ∃ h raw, d.result = some (.ok h raw) ∧ h.valid ∧ raw.length = h.outLen
  /-- ERROR holds an error (R32). -/
  errorResult : d.phase = .error → ∃ e, d.result = some (.error e)
  /-- An ACTIVE decoder that has not read its header has every register at reset (R340). -/
  fresh : d.phase = .active → d.rd = 0 → d = Dec.accept d.inp
  /-- An ACTIVE decoder that has read its header works on a valid call (R126), its cursors are within their buffers
  (R44, R45, R280), and exactly the bytes below the write cursor have been written (R46). -/
  loop : d.phase = .active → d.rd ≠ 0 →
    d.hdr.valid ∧ 14 ≤ d.rd ∧ d.rd ≤ d.inp.length ∧ d.wr ≤ d.hdr.outLen ∧ d.hdr.channels.toNat ∣ d.wr ∧
      ∀ a, (d.out.read a).isSome = true ↔ a < d.wr

/-- The invariant of the block. -/
def BlockInv (s : State) : Prop := EncInv s.enc ∧ DecInv s.dec

/-- The opcode is an RGB. -/
def isRgb : Instr → Bool
  | .index _ => false
  | .diff _ _ _ => false
  | .luma _ _ _ => false
  | .run _ => false
  | .rgb _ _ _ => true
  | .rgba _ _ _ _ => false
  | .none => false

/-- No RGB is chosen for a pixel of alpha other than 255 in the encoder's call that is beginning in `s`: the condition
of the round trip (`44_decoder.md` R285, `70_reset_and_hazards.md` R343). -/
def alphaSafe (P : Params) (s : State) : Prop :=
  ∀ k u px, k < s.enc.hdr.pixels + 2 → runWith P k s = .next u → inEncLoop u.enc →
    pixelIn u.enc.hdr.channels u.enc.buf u.enc.i = some px →
    isRgb (select u.enc.cache u.enc.prev px).1 = true → px.a = 255

/-- The number of pixels an emitted opcode stands for: a RUN for its run length, every other opcode for one
(`42_opcodes.md` R186). -/
def pixelsOf : Instr → Nat
  | .index _ => 1
  | .diff _ _ _ => 1
  | .luma _ _ _ => 1
  | .run n => n.toNat + 1
  | .rgb _ _ _ => 1
  | .rgba _ _ _ _ => 1
  | .none => 0

/-- The opcode is a RUN. -/
def isRun : Instr → Bool
  | .index _ => false
  | .diff _ _ _ => false
  | .luma _ _ _ => false
  | .run _ => true
  | .rgb _ _ _ => false
  | .rgba _ _ _ _ => false
  | .none => false

end Sys2Proof.Safety
end

