-- ==== Sys2Proof/Certificates/Slice0/Obligations.lean ====
section
/-! DEFINITION. The statements for the provers. Where the open parameters matter, a statement holds for every `P :
Params`, as `00_scope.md` R7 and R8 ask; `step` is `stepWith Config.params`. -/

open Sys2Proof Sys2Proof.Machine Sys2Proof.Safety

/-! ### Encoding -/

/-- R91, R101: the class of every first byte, and the length of an opcode as a function of its first byte alone. -/
def Obligations.FirstByteFixesClassAndLength : Prop :=
  ∀ t : Byte,
    (t.toNat ≤ 0x3F → classify t = .index ∧ (classify t).length = 1) ∧
    (0x40 ≤ t.toNat ∧ t.toNat ≤ 0x7F → classify t = .diff ∧ (classify t).length = 1) ∧
    (0x80 ≤ t.toNat ∧ t.toNat ≤ 0xBF → classify t = .luma ∧ (classify t).length = 2) ∧
    (0xC0 ≤ t.toNat ∧ t.toNat ≤ 0xFD → classify t = .run ∧ (classify t).length = 1) ∧
    (t.toNat = 0xFE → classify t = .rgb ∧ (classify t).length = 4) ∧
    (t.toNat = 0xFF → classify t = .rgba ∧ (classify t).length = 5) ∧
    ∀ rest i n, decode (t :: rest) = .ok i n → n = (classify t).length

/-- R201, both directions: parsing the serialization of any well-formed opcode gives it back, whatever follows, and the
serialization of what was parsed at any offset is the bytes that were parsed. -/
def Obligations.SerializerAndParserAreInverse : Prop :=
  (∀ i : Instr, i.wellFormed = true → ∀ rest, decode (encode i ++ rest) = .ok i (encode i).length) ∧
  (∀ (inp : List Byte) (p : Nat) (i : Instr) (n : Nat), decode (inp.drop p) = .ok i n →
    p + n ≤ inp.length ∧ encode i = (inp.drop p).take n)

/-- R95, R98, R198: only well-formed opcodes are ever parsed: no RUN above 61, and never NONE. -/
def Obligations.OnlyWellFormedOpcodesAreParsed : Prop :=
  ∀ bs i n, decode bs = .ok i n → i.wellFormed = true

/-- R172: the parser underruns exactly where the input ends before the opcode does. -/
def Obligations.UnderrunExactlyWhenTruncated : Prop :=
  ∀ bs, decode bs = .underrun ↔ bs = [] ∨ ∃ t rest, bs = t :: rest ∧ bs.length < (classify t).length

/-- Words written out from R92 to R97, one or more for each format, and the end marker's bytes (R128). -/
def Obligations.WrittenWordsDecode : Prop :=
  decode [0b00110101] = .ok (.index 53) 1 ∧
  decode [0b01011011] = .ok (.diff 1 2 3) 1 ∧
  decode [0b10111111, 0b11110000] = .ok (.luma 63 15 0) 2 ∧
  decode [0b11000101] = .ok (.run 5) 1 ∧
  decode [0b11111101] = .ok (.run 61) 1 ∧
  decode [0b11111110, 1, 2, 3] = .ok (.rgb 1 2 3) 4 ∧
  decode [0b11111111, 1, 2, 3, 4] = .ok (.rgba 1 2 3 4) 5 ∧
  decode [0x00] = .ok (.index 0) 1 ∧ decode [0x01] = .ok (.index 1) 1

/-! ### Pixel unit and history cache -/

/-- R143, R144: packing is big-endian in r, g, b, a, and unpacking is its inverse both ways. -/
def Obligations.PackingAndUnpackingAreInverse : Prop :=
  (∀ p, (rgba p).toNat = p.r.toNat * 2 ^ 24 + p.g.toNat * 2 ^ 16 + p.b.toNat * 2 ^ 8 + p.a.toNat) ∧
  (∀ v, (fromRgba v).r.toNat = v.toNat / 2 ^ 24 ∧ (fromRgba v).g.toNat = v.toNat / 2 ^ 16 % 256 ∧
    (fromRgba v).b.toNat = v.toNat / 2 ^ 8 % 256 ∧ (fromRgba v).a.toNat = v.toNat % 256) ∧
  (∀ p, fromRgba (rgba p) = p) ∧ ∀ v, rgba (fromRgba v) = v

/-- R145: the hash is the exact sum mod 64, and equals the low 6 bits of the sum with 8-bit wraparound at every
multiply and add. -/
def Obligations.HashIsTheSumModSixtyFour : Prop :=
  ∀ p, (pixelHash p).toNat = (p.r.toNat * 3 + p.g.toNat * 5 + p.b.toNat * 7 + p.a.toNat * 11) % 64 ∧
    pixelHash p = (p.r * 3 + p.g * 5 + p.b * 7 + p.a * 11 : Byte).setWidth 6

/-- R146: DEFAULT hashes to 53, hits there exactly while slot 53 holds it, and no other pixel hits a slot that
holds DEFAULT. -/
def Obligations.OnlyDefaultHitsADefaultSlot : Prop :=
  pixelHash Pixel.opaqueBlack = 53 ∧
  (∀ c : Cache, c.lookup Pixel.opaqueBlack = (53, decide (c.read 53 = Pixel.opaqueBlack))) ∧
  (∀ (c : Cache) (p : Pixel), p ≠ Pixel.opaqueBlack → c.read (pixelHash p) = Pixel.opaqueBlack →
    (c.lookup p).2 = false) ∧
  ∀ p, (Cache.fresh.lookup p).2 = true ↔ p = Pixel.opaqueBlack

/-- R147: a lookup is the slot of the hash and whether it holds the pixel; after any sequence of stores a slot holds the
last pixel stored to it, or what it held before; and a fresh cache holds DEFAULT. -/
def Obligations.SlotHoldsItsLastStore : Prop :=
  (∀ (c : Cache) (p : Pixel), c.lookup p = (pixelHash p, decide (c.read (pixelHash p) = p))) ∧
  (∀ (c : Cache) (ps : List Pixel) (k : Slot), (ps.foldl Cache.store c).read k =
    (ps.reverse.find? fun p => decide (pixelHash p = k)).getD (c.read k)) ∧
  ∀ k : Slot, Cache.fresh.read k = Pixel.opaqueBlack

/-! ### The meanings -/

/-- R177, with R151 and R277 to R279: INDEX(k) produces the whole pixel of slot k. -/
def Obligations.IndexProducesTheCachedPixel : Prop :=
  ∀ (k : Slot) (s : State), pixelFits s.dec →
    ∃ t, exec (.index k) s = .next t ∧ Produces (.index k) (s.dec.cache.read k) s t

/-- R180: DIFF produces the previous pixel with each colour moved by its field minus 2, wrapping, alpha unchanged. -/
def Obligations.DiffProducesThePreviousPixelMoved : Prop :=
  ∀ (dr dg db : BitVec 2) (s : State), pixelFits s.dec →
    ∃ t px, exec (.diff dr dg db) s = .next t ∧ Produces (.diff dr dg db) px s t ∧
      (px.r.toNat : Int) = (s.dec.prev.r.toNat + dr.toNat - 2) % 256 ∧
      (px.g.toNat : Int) = (s.dec.prev.g.toNat + dg.toNat - 2) % 256 ∧
      (px.b.toNat : Int) = (s.dec.prev.b.toNat + db.toNat - 2) % 256 ∧
      px.a = s.dec.prev.a

/-- R183: LUMA moves green by its field minus 32, and red and blue by that plus their own field minus 8. -/
def Obligations.LumaProducesThePreviousPixelMoved : Prop :=
  ∀ (dg : BitVec 6) (drg dbg : BitVec 4) (s : State), pixelFits s.dec →
    ∃ t px, exec (.luma dg drg dbg) s = .next t ∧ Produces (.luma dg drg dbg) px s t ∧
      (px.r.toNat : Int) = (s.dec.prev.r.toNat + (dg.toNat - 32) + drg.toNat - 8) % 256 ∧
      (px.g.toNat : Int) = (s.dec.prev.g.toNat + (dg.toNat - 32)) % 256 ∧
      (px.b.toNat : Int) = (s.dec.prev.b.toNat + (dg.toNat - 32) + dbg.toNat - 8) % 256 ∧
      px.a = s.dec.prev.a

/-- R193: RGB produces its own channels with alpha 255, whatever the previous alpha was. -/
def Obligations.RgbProducesAnOpaquePixel : Prop :=
  ∀ (r g b : Byte) (s : State), pixelFits s.dec →
    ∃ t, exec (.rgb r g b) s = .next t ∧ Produces (.rgb r g b) ⟨r, g, b, 255⟩ s t

/-- R196: RGBA produces its own four channels. -/
def Obligations.RgbaProducesItsOwnChannels : Prop :=
  ∀ (r g b a : Byte) (s : State), pixelFits s.dec →
    ∃ t, exec (.rgba r g b a) s = .next t ∧ Produces (.rgba r g b a) ⟨r, g, b, a⟩ s t

/-- R276: RUN(n) loads the pending counter with n + 1 and changes nothing else; with no opcode to repeat it raises
RUN_WITHOUT_OPCODE at its own offset. Two things in it are the model's choice: that the values n = 62 and 63, outside
R103's type and never parsed, load 63 and 64 (DESIGN CHOICE, log entry 13), and that at the error the read cursor,
already past the RUN's one byte, stands at the RUN again, where R314 and R273's pseudo-code differ (DESIGN CHOICE, log
entry 8). -/
def Obligations.RunLoadsThePendingCounter : Prop :=
  ∀ (n : BitVec 6) (s : State),
    (∀ op, s.dec.lastOp = some op →
      exec (.run n) s = .next { s with dec := { s.dec with pending := n.toNat + 1 } }) ∧
    (s.dec.lastOp = none →
      ∃ t, exec (.run n) s = .next t ∧
        Raises (.parse .runWithoutOpcode (s.dec.rd - 1)) (s.withDec (s.dec.withRd (s.dec.rd - 1))) t)

/-- R197, R198: NONE serializes to no bytes, is never chosen and never parsed, and if it were parsed, it would raise
NONE_TAG at its offset. -/
def Obligations.NoneIsAFatalParseError : Prop :=
  encode .none = [] ∧ (∀ c prev px, (select c prev px).1 ≠ .none) ∧ (∀ bs n, decode bs ≠ .ok .none n) ∧
  ∀ s, ∃ t, exec .none s = .next t ∧ Raises (.parse .noneTag s.dec.rd) s t

/-- R60, R70 and log entry 9: a pixel that does not fit the OUT space is not written; the machine stops. -/
def Obligations.PixelOutsideOutStops : Prop :=
  ∀ (i : Instr) (s : State), i.producesPixel = true → ¬ pixelFits s.dec →
    exec i s = .fault .outputOutOfRange

/-- R174: the frame of every opcode. None touches the encoder, the host, IN or the header. One that produces a pixel
leaves the phase, the result, the pending counter, the read cursor, every slot but that of the pixel now previous, and
every byte of OUT but those of one pixel at the write cursor. A RUN with an opcode to repeat leaves all of the decoder
but the pending counter, OUT included. NONE, and a RUN with nothing to repeat, raise an error, which leaves no byte of
OUT with a value (R315), and leave all else: the cache, the previous pixel and opcode, the pending counter and the write
cursor; NONE leaves the read cursor, and the RUN puts it back at its own byte (DESIGN CHOICE, log entry 8). -/
def Obligations.OpcodesChangeOnlyTheirOwnRegisters : Prop :=
  ∀ (i : Instr) (s t : State), exec i s = .next t →
    t.enc = s.enc ∧ t.host = s.host ∧ t.delivered = s.delivered ∧ t.dec.inp = s.dec.inp ∧ t.dec.hdr = s.dec.hdr ∧
    (i.producesPixel = true →
      t.dec.phase = s.dec.phase ∧ t.dec.result = s.dec.result ∧ t.dec.pending = s.dec.pending ∧
      t.dec.rd = s.dec.rd ∧ (∀ k, k ≠ pixelHash t.dec.prev → t.dec.cache.read k = s.dec.cache.read k) ∧
      ∀ a, a < s.dec.wr ∨ s.dec.wr + pixelSize s.dec.hdr ≤ a → t.dec.out.read a = s.dec.out.read a) ∧
    (∀ n, i = .run n → s.dec.lastOp ≠ none → t.dec = s.dec.withPending t.dec.pending) ∧
    (i = .none ∨ (∃ n, i = .run n) ∧ s.dec.lastOp = none →
      t.dec.phase = .error ∧ t.dec.cache = s.dec.cache ∧ t.dec.prev = s.dec.prev ∧ t.dec.lastOp = s.dec.lastOp ∧
      t.dec.pending = s.dec.pending ∧ t.dec.wr = s.dec.wr ∧ (∀ a, t.dec.out.read a = none) ∧
      t.dec.rd = (if i = .none then s.dec.rd else s.dec.rd - 1))

/-! ### Steps of the decoder -/

/-- R273, R275: in the loop and with no repetition pending, a step is the meaning of the opcode decoded at the read
cursor, with the cursor moved past it; the host and the encoder have made their own moves (`h`), and where they have
none to make the step is exactly that. -/
def Obligations.StepRunsTheDecodedOpcode : Prop :=
  (∀ s i n h, inDecLoop s.dec → s.dec.pending = 0 → decode (s.dec.inp.drop s.dec.rd) = .ok i n →
    encMove Config.params s = .next h →
    step s = exec i (h.withDec { s.dec with rd := s.dec.rd + n })) ∧
  (∀ s i n, inDecLoop s.dec → s.dec.pending = 0 → decode (s.dec.inp.drop s.dec.rd) = .ok i n →
    s.enc.phase ≠ .active → s.host = [] →
    step s = exec i (s.withDec { s.dec with rd := s.dec.rd + n }))

/-- The state that is to fetch a given table word next does so (log entry 16): where the decoder reads instruction `i`
of `n` bytes from the word, that state's step is the meaning of `i` with the read cursor moved past those `n` bytes. -/
def Obligations.PlacedWordIsTheNextInstruction : Prop :=
  ∀ (s : State) (nbits w : Nat) (i : Instr) (n : Nat), decode (tableBytes nbits w) = .ok i n →
    s.enc.phase ≠ .active → s.host = [] →
    decodeTableWord nbits w = some i ∧
    step (s.withFetchWord nbits w) =
      exec i ((s.withFetchWord nbits w).withDec
        { (s.withFetchWord nbits w).dec with rd := (s.withFetchWord nbits w).dec.rd + n })

/-- R274: with repetitions pending, a step counts one down and is the meaning of `DEC.lastOp` again; it reads no
input, and there is always an opcode to repeat. -/
def Obligations.PendingStepRepeatsTheLastOpcode : Prop :=
  ∀ P s h, BlockInv s → inDecLoop s.dec → 0 < s.dec.pending → encMove P s = .next h →
    ∃ op t, s.dec.lastOp = some op ∧ stepWith P s = .next t ∧
      exec op (h.withDec { s.dec with pending := s.dec.pending - 1 }) = .next t ∧
      t.dec.rd = s.dec.rd ∧ t.dec.pending = s.dec.pending - 1 ∧ t.dec.lastOp = some op ∧
      t.dec.wr = s.dec.wr + s.dec.hdr.channels.toNat

/-- R281: where the input has no byte at the read cursor, or ends before the opcode there does, the step raises
UNDERRUN at the cursor. -/
def Obligations.TruncatedInputRaisesUnderrun : Prop :=
  ∀ P s h, inDecLoop s.dec → s.dec.pending = 0 → encMove P s = .next h →
    (s.dec.inp.length ≤ s.dec.rd ∨
      ∃ b, s.dec.inp[s.dec.rd]? = some b ∧ s.dec.inp.length < s.dec.rd + (classify b).length) →
    ∃ t, stepWith P s = .next t ∧ Raises (.parse .underrun s.dec.rd) h t

/-- R280: the loop ends exactly when the write cursor is at OUTLEN; with repetitions still pending the call ends in
OVERRUN, and else in DONE with the header and the raw buffer that OUT holds. -/
def Obligations.FullOutputEndsTheCall : Prop :=
  (∀ s, BlockInv s → s.dec.phase = .active → s.dec.rd ≠ 0 →
    (¬ s.dec.wr < s.dec.hdr.outLen ↔ s.dec.wr = s.dec.hdr.outLen)) ∧
  ∀ P s h, s.dec.phase = .active → s.dec.rd ≠ 0 → s.dec.hdr.outLen ≤ s.dec.wr → encMove P s = .next h →
    (0 < s.dec.pending → ∃ t, stepWith P s = .next t ∧ Raises (.parse .overrun s.dec.rd) h t) ∧
    (s.dec.pending = 0 → ∀ raw : List Byte, raw.length = s.dec.hdr.outLen →
      (∀ j, j < s.dec.hdr.outLen → s.dec.out.read j = raw[j]?) →
      stepWith P s = .next (h.withDec { s.dec with phase := .done, result := some (.ok s.dec.hdr raw) }))

/-- R123, R126: the checks of DECODE in their order, and the header read once they have all passed. -/
def Obligations.DecodeValidatesInOrder : Prop :=
  ∀ P s, s.dec.phase = .active → s.dec.rd = 0 →
    (s.dec.inp = [] → decBecomes P s (s.dec.raise (.validation .empty))) ∧
    (0 < s.dec.inp.length → s.dec.inp.length < 14 → decBecomes P s (s.dec.raise (.validation .shortHeader))) ∧
    ∀ m0 m1 m2 m3 w0 w1 w2 w3 h0 h1 h2 h3 ch cs rest,
      s.dec.inp = m0 :: m1 :: m2 :: m3 :: w0 :: w1 :: w2 :: w3 :: h0 :: h1 :: h2 :: h3 :: ch :: cs :: rest →
      ∀ width height : U32,
        width.toNat = w0.toNat * 2 ^ 24 + w1.toNat * 2 ^ 16 + w2.toNat * 2 ^ 8 + w3.toNat →
        height.toNat = h0.toNat * 2 ^ 24 + h1.toNat * 2 ^ 16 + h2.toNat * 2 ^ 8 + h3.toNat →
        decBecomes P s
          (if (⟨m0, m1, m2, m3⟩ : Magic) ≠ P.magic then
            s.dec.raise (.magicMismatch P.magic ⟨m0, m1, m2, m3⟩)
          else if width = 0 then s.dec.raise (.validation .widthZero)
          else if height = 0 then s.dec.raise (.validation .heightZero)
          else if ¬ (ch = 3 ∨ ch = 4) then s.dec.raise (.validation .badChannels)
          else if ¬ (cs = 0 ∨ cs = 1) then s.dec.raise (.validation .badColorspace)
          else if P.maxOutputBytes.any (fun m => decide (m < width.toNat * height.toNat * ch.toNat)) = true then
            s.dec.raise (.validation .capacity)
          else { s.dec with hdr := ⟨width, height, ch, cs⟩, rd := 14 })

/-! ### Steps of the encoder -/

/-- R122, R125: the checks of ENCODE in their order, and the 14 header bytes as the first emission once they have all
passed. -/
def Obligations.EncodeValidatesInOrder : Prop :=
  ∀ P s, s.enc.phase = .active → s.enc.out = [] →
    ∀ (width height : U32) (ch cs : Byte), s.enc.hdr = ⟨width, height, ch, cs⟩ →
      encBecomes P s
        (if s.enc.buf = [] then s.enc.raise .empty
        else if width = 0 then s.enc.raise .widthZero
        else if height = 0 then s.enc.raise .heightZero
        else if ¬ (ch = 3 ∨ ch = 4) then s.enc.raise .badChannels
        else if ¬ (cs = 0 ∨ cs = 1) then s.enc.raise .badColorspace
        else if P.maxOutputBytes.any (fun m => decide (m < width.toNat * height.toNat * ch.toNat)) = true then
          s.enc.raise .capacity
        else if s.enc.buf.length ≠ width.toNat * height.toNat * ch.toNat then s.enc.raise .lengthMismatch
        else { s.enc with out :=
          [P.magic.m0, P.magic.m1, P.magic.m2, P.magic.m3,
            BitVec.ofNat 8 (width.toNat / 2 ^ 24), BitVec.ofNat 8 (width.toNat / 2 ^ 16),
            BitVec.ofNat 8 (width.toNat / 2 ^ 8), BitVec.ofNat 8 width.toNat,
            BitVec.ofNat 8 (height.toNat / 2 ^ 24), BitVec.ofNat 8 (height.toNat / 2 ^ 16),
            BitVec.ofNat 8 (height.toNat / 2 ^ 8), BitVec.ofNat 8 height.toNat, ch, cs] })

/-- R232 to R239: the selector's tests in their order. A hit is INDEX and leaves the cache; a miss stores the pixel, and
is RGBA where alpha changed, else DIFF where the three signed 8-bit deltas are in -2..1, else LUMA where green is in
-32..31 and the two differences are in -8..7, else RGB; the fields are the deltas with their biases. -/
def Obligations.SelectorTestsInPriorityOrder : Prop :=
  ∀ (c : Cache) (prev px : Pixel) (vr vg vb vrg vbg : Int),
    vr = (px.r - prev.r).toInt → vg = (px.g - prev.g).toInt → vb = (px.b - prev.b).toInt →
    vrg = ((px.r - prev.r) - (px.g - prev.g)).toInt → vbg = ((px.b - prev.b) - (px.g - prev.g)).toInt →
    (c.read (pixelHash px) = px → select c prev px = (.index (pixelHash px), c)) ∧
    (c.read (pixelHash px) ≠ px → (select c prev px).2 = c.store px ∧
      (px.a ≠ prev.a → (select c prev px).1 = .rgba px.r px.g px.b px.a) ∧
      (px.a = prev.a →
        ((-2 ≤ vr ∧ vr ≤ 1) ∧ (-2 ≤ vg ∧ vg ≤ 1) ∧ (-2 ≤ vb ∧ vb ≤ 1) →
          ∃ dr dg db, (select c prev px).1 = .diff dr dg db ∧ (dr.toNat : Int) = vr + 2 ∧
            (dg.toNat : Int) = vg + 2 ∧ (db.toNat : Int) = vb + 2) ∧
        (¬ ((-2 ≤ vr ∧ vr ≤ 1) ∧ (-2 ≤ vg ∧ vg ≤ 1) ∧ (-2 ≤ vb ∧ vb ≤ 1)) →
          ((-8 ≤ vrg ∧ vrg ≤ 7) ∧ (-32 ≤ vg ∧ vg ≤ 31) ∧ (-8 ≤ vbg ∧ vbg ≤ 7) →
            ∃ dg drg dbg, (select c prev px).1 = .luma dg drg dbg ∧ (dg.toNat : Int) = vg + 32 ∧
              (drg.toNat : Int) = vrg + 8 ∧ (dbg.toNat : Int) = vbg + 8) ∧
          (¬ ((-8 ≤ vrg ∧ vrg ≤ 7) ∧ (-32 ≤ vg ∧ vg ≤ 31) ∧ (-8 ≤ vbg ∧ vbg ≤ 7)) →
            (select c prev px).1 = .rgb px.r px.g px.b))))

/-- R246: with the previous pixel in the cache, as the invariant has it, the selector never chooses a zero delta, and it
never chooses the same RGB or RGBA for the next pixel as for this one, so neither is ever a repeat. -/
def Obligations.SelectorNeverChoosesAZeroDelta : Prop :=
  (Cache.fresh.read (pixelHash Pixel.opaqueBlack) = Pixel.opaqueBlack) ∧
  (∀ (c : Cache) (prev px : Pixel), c.read (pixelHash prev) = prev →
    (select c prev px).1 ≠ .diff 2 2 2 ∧ (select c prev px).1 ≠ .luma 32 8 8) ∧
  ∀ (c : Cache) (prev px px' : Pixel) (r g b a : Byte),
    ((select c prev px).1 = .rgb r g b → (select (select c prev px).2 px px').1 ≠ .rgb r g b) ∧
    ((select c prev px).1 = .rgba r g b a → (select (select c prev px).2 px px').1 ≠ .rgba r g b a)

/-- R284, one pixel of it: a decoder with the encoder's cache and previous pixel, given the opcode the selector chooses
for a pixel, produces that very pixel and has the encoder's cache again, unless it is an RGB for an alpha other than
255. -/
def Obligations.SelectedOpcodeRebuildsThePixel : Prop :=
  ∀ (s : State) (px : Pixel), pixelFits s.dec →
    (isRgb (select s.dec.cache s.dec.prev px).1 = true → px.a = 255) →
    ∃ t, exec (select s.dec.cache s.dec.prev px).1 s = .next t ∧
      Produces (select s.dec.cache s.dec.prev px).1 px s t ∧
      t.dec.cache = (select s.dec.cache s.dec.prev px).2

/-- R231, R240 to R243: one encoder step. The pixel becomes the previous one and its chosen opcode the previous opcode;
a repeat is counted, and flushed as a RUN at 62 or at the last pixel; anything else flushes the pending run and is
emitted itself. -/
def Obligations.EncoderStepFoldsRepeats : Prop :=
  ∀ P s px, inEncLoop s.enc → s.enc.run ≤ 61 →
    pixelIn s.enc.hdr.channels s.enc.buf s.enc.i = some px →
    ∃ e, encBecomes P s e ∧
      e.cache = (select s.enc.cache s.enc.prev px).2 ∧ e.prev = px ∧
      e.prevOp = some (select s.enc.cache s.enc.prev px).1 ∧ e.i = s.enc.i + 1 ∧
      e.phase = s.enc.phase ∧ e.hdr = s.enc.hdr ∧ e.buf = s.enc.buf ∧ e.result = s.enc.result ∧
      (s.enc.prevOp = some (select s.enc.cache s.enc.prev px).1 →
        (s.enc.run + 1 = 62 ∨ s.enc.i + 1 = s.enc.hdr.pixels →
          e.out = s.enc.out ++ [BitVec.ofNat 8 (0xC0 + s.enc.run)] ∧ e.run = 0) ∧
        (¬ (s.enc.run + 1 = 62 ∨ s.enc.i + 1 = s.enc.hdr.pixels) →
          e.out = s.enc.out ∧ e.run = s.enc.run + 1)) ∧
      (s.enc.prevOp ≠ some (select s.enc.cache s.enc.prev px).1 →
        e.out = s.enc.out ++ (if s.enc.run = 0 then [] else [BitVec.ofNat 8 (0xC0 + (s.enc.run - 1))]) ++
          encode (select s.enc.cache s.enc.prev px).1 ∧ e.run = 0)

/-- R245: k consecutive repeats emit k / 62 RUN(61) opcodes, followed by one RUN(k mod 62 - 1) where k mod 62 is not
zero, once another opcode is chosen or the buffer ends. -/
def Obligations.RepeatGroupsFoldBySixtyTwo : Prop :=
  ∀ (e : Enc) (op : Instr) (k : Nat), e.prevOp = some op → e.run = 0 → 0 < k →
    (∀ (op' : Instr) (last : Bool), op' ≠ op →
      (((fun e' : Enc => e'.runFold op false)^[k] e).runFold op' last).out =
        e.out ++ List.replicate (k / 62) 0xFD ++
          (if k % 62 = 0 then [] else [BitVec.ofNat 8 (0xC0 + (k % 62 - 1))]) ++ encode op') ∧
    (((fun e' : Enc => e'.runFold op false)^[k - 1] e).runFold op true).out =
      e.out ++ List.replicate (k / 62) 0xFD ++
        (if k % 62 = 0 then [] else [BitVec.ofNat 8 (0xC0 + (k % 62 - 1))])

/-- R127: after the last pixel the encoder emits the 9-byte end marker and the call ends with all it has emitted. -/
def Obligations.EndMarkerEndsTheStream : Prop :=
  ∀ P s, s.enc.phase = .active → s.enc.out ≠ [] → s.enc.hdr.pixels ≤ s.enc.i →
    encBecomes P s { s.enc with
      phase := .done
      out := s.enc.out ++ [0x00, 0x00, 0x00, 0x00, 0x00, 0x00, 0x00, 0x00, 0x01]
      result := some (.ok (s.enc.out ++ [0x00, 0x00, 0x00, 0x00, 0x00, 0x00, 0x00, 0x00, 0x01])) }

/-! ### Calls, results, errors -/

/-- R340: an IDLE engine that takes a call has every register at its reset value, and the call's inputs. -/
def Obligations.EveryCallResetsItsEngine : Prop :=
  (∀ P s t hdr buf rest, s.host = .encode hdr buf :: rest → s.enc.phase = .idle → stepWith P s = .next t →
    (∀ k, t.enc.cache.read k = ⟨0, 0, 0, 255⟩) ∧ t.enc.prev = ⟨0, 0, 0, 255⟩ ∧ t.enc.prevOp = none ∧
    t.enc.run = 0 ∧ t.enc.i = 0 ∧ t.enc.out = [] ∧ t.enc.phase = .active ∧ t.enc.hdr = hdr ∧
    t.enc.buf = buf ∧ t.enc.result = none ∧ t.host = rest) ∧
  ∀ P s t bytes rest, s.host = .decode bytes :: rest → s.dec.phase = .idle → stepWith P s = .next t →
    (∀ k, t.dec.cache.read k = ⟨0, 0, 0, 255⟩) ∧ t.dec.prev = ⟨0, 0, 0, 255⟩ ∧ t.dec.lastOp = none ∧
    t.dec.pending = 0 ∧ t.dec.rd = 0 ∧ t.dec.wr = 0 ∧ (∀ a, t.dec.out.read a = none) ∧
    t.dec.phase = .active ∧ t.dec.inp = bytes ∧ t.dec.result = none ∧ t.host = rest

/-- R32: an engine that has ended keeps its result until the host takes it, and then returns to IDLE. -/
def Obligations.ResultStaysUntilTaken : Prop :=
  ∀ P s t, stepWith P s = .next t →
    (s.dec.phase = .done ∨ s.dec.phase = .error →
      (s.host.head? ≠ some .takeDec → t.dec = s.dec) ∧
      (∀ r, s.host.head? = some .takeDec → s.dec.result = some r →
        t.dec.phase = .idle ∧ t.dec.result = none ∧ t.delivered = s.delivered ++ [.dec r])) ∧
    (s.enc.phase = .done ∨ s.enc.phase = .error →
      (s.host.head? ≠ some .takeEnc → t.enc = s.enc) ∧
      (∀ r, s.host.head? = some .takeEnc → s.enc.result = some r →
        t.enc.phase = .idle ∧ t.enc.result = none ∧ t.delivered = s.delivered ++ [.enc r]))

/-- R68: the host receives nothing but whole results of calls that have ended. -/
def Obligations.OnlyEndedCallsDeliver : Prop :=
  ∀ P s t, stepWith P s = .next t →
    t.delivered = s.delivered ∨
    (∃ r, t.delivered = s.delivered ++ [.enc r] ∧ s.enc.result = some r ∧
      (s.enc.phase = .done ∨ s.enc.phase = .error)) ∨
    ∃ r, t.delivered = s.delivered ++ [.dec r] ∧ s.dec.result = some r ∧
      (s.dec.phase = .done ∨ s.dec.phase = .error)

/-- R30: an engine's step in a call depends on nothing but that engine: not on the other engine, and not on the host,
which cannot interrupt the call. -/
def Obligations.EnginesShareNothing : Prop :=
  ∀ P s s' t t', stepWith P s = .next t → stepWith P s' = .next t' →
    (s.dec = s'.dec → s.dec.phase = .active → t.dec = t'.dec) ∧
    (s.enc = s'.enc → s.enc.phase = .active → t.enc = t'.enc)

/-- R315, R314: a step that takes an engine from ACTIVE to ERROR leaves an error as the result and no output, and it
is precise: every other register is as the last completed step left it. -/
def Obligations.ErrorsArePreciseAndDeliverNoOutput : Prop :=
  ∀ P s t, stepWith P s = .next t →
    (s.dec.phase = .active → t.dec.phase = .error →
      ∃ e, t.dec = { s.dec with phase := .error, out := t.dec.out, result := some (.error e) } ∧
        ∀ a, t.dec.out.read a = none) ∧
    (s.enc.phase = .active → t.enc.phase = .error →
      ∃ r, t.enc = { s.enc with phase := .error, out := [], result := some (.validationError r) })

/-- R314: after validation ENCODE cannot fail. -/
def Obligations.EncodeCannotFailAfterValidation : Prop :=
  ∀ P s t, stepWith P s = .next t → s.enc.phase = .active → s.enc.out ≠ [] →
    t.enc.phase = .active ∨ t.enc.phase = .done

/-- R310, R311, R313: the numeric codes. -/
def Obligations.ErrorCodesAreTheTables : Prop :=
  (∀ bs, (EncResult.ok bs).code = 0) ∧ (∀ h raw, (DecResult.ok h raw).code = 0) ∧
  (∀ r, (EncResult.validationError r).code = 1 ∧ (CallError.validation r).code = 1) ∧
  (∀ e f, (CallError.magicMismatch e f).code = 2) ∧ (∀ r o, (CallError.parse r o).code = 3) ∧
  (∀ e, (DecResult.error e).code = e.code) ∧
  ValidationReason.empty.code = 1 ∧ ValidationReason.shortHeader.code = 2 ∧
  ValidationReason.widthZero.code = 3 ∧ ValidationReason.heightZero.code = 4 ∧
  ValidationReason.badChannels.code = 5 ∧ ValidationReason.badColorspace.code = 6 ∧
  ValidationReason.lengthMismatch.code = 7 ∧ ValidationReason.capacity.code = 8 ∧
  ParseReason.noneTag.code = 1 ∧ ParseReason.underrun.code = 2 ∧
  ParseReason.runWithoutOpcode.code = 3 ∧ ParseReason.overrun.code = 4

/-! ### Reset and invariants -/

/-- `10_state.md` section 5: the reset values the spec gives. -/
def Obligations.ResetHasTheGivenValues : Prop :=
  State.reset.enc.phase = .idle ∧ State.reset.dec.phase = .idle ∧
  (∀ k, State.reset.enc.cache.read k = ⟨0, 0, 0, 255⟩) ∧ State.reset.enc.prev = ⟨0, 0, 0, 255⟩ ∧
  State.reset.enc.prevOp = none ∧ State.reset.enc.run = 0 ∧ State.reset.enc.i = 0 ∧ State.reset.enc.out = [] ∧
  (∀ k, State.reset.dec.cache.read k = ⟨0, 0, 0, 255⟩) ∧ State.reset.dec.prev = ⟨0, 0, 0, 255⟩ ∧
  State.reset.dec.lastOp = none ∧ State.reset.dec.pending = 0 ∧ State.reset.dec.rd = 0 ∧
  State.reset.dec.wr = 0 ∧ ∀ a, State.reset.dec.out.read a = none

/-- With no call active and nothing asked by the host, a step changes nothing (log entry 5). -/
def Obligations.IdleBlockStandsStill : Prop :=
  ∀ P s, s.enc.phase ≠ .active → s.dec.phase ≠ .active → s.host = [] → stepWith P s = .next s

/-- The invariant holds at reset. -/
def Obligations.InvariantHoldsAtReset : Prop := BlockInv State.reset

/-- Every step from a state of the invariant that goes on leads to a state of the invariant. -/
def Obligations.StepKeepsTheInvariant : Prop :=
  ∀ P s t, BlockInv s → stepWith P s = .next t → BlockInv t

/-- R317 in the model's terms: a block in a state of the invariant never stops: no step is a fault or a refusal. -/
def Obligations.InvariantStatesNeverStop : Prop :=
  ∀ P s, BlockInv s → ∃ t, stepWith P s = .next t

/-- R148: both caches hold DEFAULT or a pixel of the slot's own hash in every slot, at reset and after every step; and a
lookup hits exactly when the slot of the pixel's hash holds it. -/
def Obligations.EverySlotHoldsDefaultOrItsOwnHash : Prop :=
  (CacheInv State.reset.enc.cache ∧ CacheInv State.reset.dec.cache) ∧
  (∀ P s t, CacheInv s.enc.cache → CacheInv s.dec.cache → stepWith P s = .next t →
    CacheInv t.enc.cache ∧ CacheInv t.dec.cache) ∧
  ∀ (c : Cache) (p : Pixel), ((c.lookup p).2 = true ↔ c.read (pixelHash p) = p) ∧ (c.lookup p).1 = pixelHash p

/-- Every step keeps OUT in its canonical form. -/
def Obligations.OutputMemoryStaysCanonical : Prop :=
  ∀ P s t, s.dec.out.wf → stepWith P s = .next t → t.dec.out.wf

/-! ### Whole calls -/

/-- R283: a DECODE call ends, in DONE or in ERROR, within (LEN - 14) + N steps of its loop. The two further moves, one
for validation and one for the end of the call, are the model's choice (DESIGN CHOICE, log entry 12). -/
def Obligations.DecodeEndsWithinItsBound : Prop :=
  ∀ P s bytes, BlockInv s → s.dec = Dec.accept bytes →
    ∃ k t, runWith P k s = .next t ∧ (t.dec.phase = .done ∨ t.dec.phase = .error) ∧
      k ≤ (bytes.length - 14) + t.dec.hdr.pixels + 2

/-- R230: the loop of a valid ENCODE call runs exactly N steps, and the call ends in DONE. That validation with the header
is one move before the loop and the end marker with the result one move after it is the model's choice (DESIGN CHOICE,
log entry 12). -/
def Obligations.EncodeTakesExactlyNSteps : Prop :=
  ∀ P s hdr buf, BlockInv s → s.enc = Enc.accept hdr buf → encodeError P hdr buf = none →
    (∀ k, k ≤ hdr.pixels → ∃ t, runWith P (k + 1) s = .next t ∧ t.enc.phase = .active ∧ t.enc.out ≠ [] ∧
      t.enc.i = k) ∧
    ∃ t bs, runWith P (hdr.pixels + 2) s = .next t ∧ t.enc.phase = .done ∧ t.enc.result = some (.ok bs)

/-- R130, R249: the result of a valid ENCODE call is the header, the serializations of well-formed opcodes and the end
marker; the first opcode is no RUN, and the opcodes stand for exactly N pixels. -/
def Obligations.EncodeResultIsHeaderOpcodesEndMarker : Prop :=
  ∀ P s hdr buf, BlockInv s → s.enc = Enc.accept hdr buf → encodeError P hdr buf = none →
    ∃ (t : State) (ops : List Instr), runWith P (hdr.pixels + 2) s = .next t ∧
      t.enc.result = some (.ok (headerBytes P.magic hdr ++ ops.flatMap encode ++ endMarker)) ∧
      (∀ op ∈ ops, op.wellFormed = true) ∧ (∀ op, ops.head? = some op → isRun op = false) ∧
      (ops.map pixelsOf).sum = hdr.pixels

/-- R247: the result of a valid ENCODE call has at least 14 + 1 + 9 and at most 14 + 5N + 9 bytes. -/
def Obligations.EncodeResultSizeIsBounded : Prop :=
  ∀ P s hdr buf, BlockInv s → s.enc = Enc.accept hdr buf → encodeError P hdr buf = none →
    ∃ t bs, runWith P (hdr.pixels + 2) s = .next t ∧ t.enc.result = some (.ok bs) ∧
      14 + 1 + 9 ≤ bs.length ∧ bs.length ≤ 14 + 5 * hdr.pixels + 9

/-- R285: what a valid ENCODE call returns, DECODE turns back into the header and the raw buffer, if no RGB is chosen
for a pixel of alpha other than 255. -/
def Obligations.DecodeInvertsEncode : Prop :=
  ∀ P s s' hdr buf, BlockInv s → BlockInv s' → s.enc = Enc.accept hdr buf → encodeError P hdr buf = none →
    alphaSafe P s →
    ∃ t stream, runWith P (hdr.pixels + 2) s = .next t ∧ t.enc.result = some (.ok stream) ∧
      (s'.dec = Dec.accept stream →
        ∃ k t', runWith P k s' = .next t' ∧ t'.dec.phase = .done ∧ t'.dec.result = some (.ok hdr buf))

/-- R285: the round trip needs no further condition for 3-channel images and for images whose every alpha is 255. -/
def Obligations.OpaqueImagesRoundTrip : Prop :=
  ∀ P s s' hdr buf, BlockInv s → BlockInv s' → s.enc = Enc.accept hdr buf → encodeError P hdr buf = none →
    (hdr.channels = 3 ∨ ∀ i px, pixelIn hdr.channels buf i = some px → px.a = 255) →
    ∃ t stream, runWith P (hdr.pixels + 2) s = .next t ∧ t.enc.result = some (.ok stream) ∧
      (s'.dec = Dec.accept stream →
        ∃ k t', runWith P k s' = .next t' ∧ t'.dec.phase = .done ∧ t'.dec.result = some (.ok hdr buf))

/-- R285, R343: the round trip can fail: the two-pixel image of vector ENC-ALPHA-HAZARD decodes, with success, to a raw
buffer that differs in its last byte. -/
def Obligations.RgbAlphaHazardBreaksTheRoundTrip : Prop :=
  ∀ m : Magic, ∃ t stream t',
    runWith ⟨m, none⟩ 4 { State.reset with enc := Enc.accept ⟨2, 1, 4, 0⟩ [0, 0, 0, 128, 100, 0, 0, 128] } = .next t ∧
    t.enc.result = some (.ok stream) ∧
    runWith ⟨m, none⟩ 4 { State.reset with dec := Dec.accept stream } = .next t' ∧
    t'.dec.result = some (.ok ⟨2, 1, 4, 0⟩ [0, 0, 0, 128, 100, 0, 0, 255])

/-- R282: bytes at or after the final read cursor are never read: a stream that agrees with this one up to there decodes
the same. -/
def Obligations.BytesAfterTheLastOpcodeAreIgnored : Prop :=
  ∀ P s s' t bytes bytes' k, BlockInv s → BlockInv s' → s.host = [] → s'.host = [] →
    s.dec = Dec.accept bytes → s'.dec = Dec.accept bytes' →
    runWith P k s = .next t → t.dec.phase = .done → bytes'.take t.dec.rd = bytes.take t.dec.rd →
    ∃ t', runWith P k s' = .next t' ∧ t'.dec.phase = .done ∧ t'.dec.result = t.dec.result
end

