-- ==== Sys2Proof/Laws/Cache.lean ====
section
/-! SUPPORT. The laws of the history cache: a read after a write. -/

namespace Sys2Proof.Machine

@[simp] theorem Cache.read_fresh (k : Slot) : Cache.fresh.read k = Pixel.opaqueBlack := by
  simp [Cache.read, Cache.fresh, Vector.get_eq_getElem]

theorem Cache.read_write (c : Cache) (k : Slot) (p : Pixel) (j : Slot) :
    (c.write k p).read j = if j = k then p else c.read j := by
  have e : (j = k) ↔ ((k.toFin : Nat) = (j.toFin : Nat)) := by
    constructor
    · rintro rfl; rfl
    · intro h; exact BitVec.eq_of_toNat_eq (by simpa using h.symm)
  simp only [Cache.read, Cache.write, Vector.get_eq_getElem, Vector.getElem_set, e]

theorem Cache.read_store (c : Cache) (p : Pixel) (j : Slot) :
    (c.store p).read j = if j = pixelHash p then p else c.read j := Cache.read_write c _ p j

@[simp] theorem Cache.read_store_own (c : Cache) (p : Pixel) : (c.store p).read (pixelHash p) = p := by
  simp [Cache.read_store]

@[simp] theorem Cache.lookup_fst (c : Cache) (p : Pixel) : (c.lookup p).1 = pixelHash p := rfl

@[simp] theorem Cache.lookup_snd (c : Cache) (p : Pixel) :
    (c.lookup p).2 = decide (c.read (pixelHash p) = p) := rfl

/-- Two caches that read alike at every slot are equal. -/
theorem Cache.ext_read {c d : Cache} (h : ∀ k, c.read k = d.read k) : c = d := by
  apply Vector.ext
  intro i hi
  simpa [Cache.read, Vector.get_eq_getElem, Nat.mod_eq_of_lt hi] using h (BitVec.ofNat 6 i)

end Sys2Proof.Machine
end

