-- ==== Sys2Proof/Laws/Memory.lean ====
section
/-! SUPPORT. The laws of OUT: a read after a write, the canonical form, runs of bytes. -/

namespace Sys2Proof.Machine

@[simp] theorem Memory.read_nil (a : Nat) : Memory.read [] a = none := rfl

theorem Memory.read_write (m : Memory) (a : Nat) (v : Byte) (b : Nat) :
    Memory.read (m.write a v) b = if b = a then some v else m.read b := by
  induction m with
  | nil => simp [Memory.write, Memory.read, Memory.unlisted]
  | cons c rest ih =>
    obtain ⟨c, u⟩ := c
    unfold Memory.write
    split_ifs with h1 h2 h3 h3 <;> simp only [Memory.read, ih] <;> split_ifs <;> first | rfl | omega

@[simp] theorem Memory.read_write_same (m : Memory) (a : Nat) (v : Byte) :
    Memory.read (m.write a v) a = some v := by simp [Memory.read_write]

theorem Memory.read_write_other (m : Memory) {a b : Nat} (v : Byte) (h : b ≠ a) :
    Memory.read (m.write a v) b = m.read b := by simp [Memory.read_write, h]

/-- Every offset of the memory after a write is the offset written or an offset from before. -/
theorem Memory.mem_write {m : Memory} {a : Nat} {v : Byte} {c : Host.Cell} (h : c ∈ m.write a v) :
    c.1 = a ∨ ∃ c' ∈ m, c'.1 = c.1 := by
  induction m with
  | nil => simp [Memory.write] at h; simp [h]
  | cons d rest ih =>
    obtain ⟨b, u⟩ := d
    unfold Memory.write at h
    split_ifs at h with h1 h2
    · rcases List.mem_cons.1 h with rfl | h
      · exact .inl rfl
      · exact .inr ⟨c, h, rfl⟩
    · rcases List.mem_cons.1 h with rfl | h
      · exact .inl rfl
      · exact .inr ⟨c, List.mem_cons_of_mem _ h, rfl⟩
    · rcases List.mem_cons.1 h with rfl | h
      · exact .inr ⟨_, List.mem_cons_self, rfl⟩
      · rcases ih h with e | ⟨c', hc, e⟩
        · exact .inl e
        · exact .inr ⟨c', List.mem_cons_of_mem _ hc, e⟩

/-- A write keeps the canonical form. -/
theorem Memory.wf_write {m : Memory} (hm : m.wf) (a : Nat) (v : Byte) : (m.write a v).wf := by
  induction m with
  | nil => simp [Memory.wf, Memory.write]
  | cons d rest ih =>
    obtain ⟨b, u⟩ := d
    obtain ⟨hb, hr⟩ := List.pairwise_cons.1 hm
    unfold Memory.write
    split_ifs with h1 h2
    · refine List.pairwise_cons.2 ⟨fun c hc => ?_, hm⟩
      rcases List.mem_cons.1 hc with rfl | hc
      · exact h1
      · exact Nat.lt_trans h1 (hb c hc)
    · subst h2
      exact List.pairwise_cons.2 ⟨hb, hr⟩
    · refine List.pairwise_cons.2 ⟨fun c hc => ?_, ih hr⟩
      rcases Memory.mem_write hc with e | ⟨c', hc', e⟩
      · simp only; omega
      · simpa [e] using hb c' hc'

theorem Memory.wf_writeBytes {m : Memory} (hm : m.wf) (a : Nat) (vs : List Byte) :
    (m.writeBytes a vs).wf := by
  induction vs generalizing m a with
  | nil => exact hm
  | cons v vs ih => exact ih (Memory.wf_write hm a v) (a + 1)

/-- What every offset reads as after a run of bytes has been written. -/
theorem Memory.read_writeBytes (m : Memory) (a : Nat) (vs : List Byte) (b : Nat) :
    (m.writeBytes a vs).read b = if a ≤ b ∧ b < a + vs.length then vs[b - a]? else m.read b := by
  induction vs generalizing m a with
  | nil => simp only [Memory.writeBytes, List.length_nil]; split_ifs <;> first | rfl | omega
  | cons v vs ih =>
    rw [Memory.writeBytes, ih, Memory.read_write]
    simp only [List.length_cons]
    by_cases hb : b = a
    · subst hb
      rw [if_neg (by omega), if_pos rfl, if_pos (by omega)]
      simp
    · by_cases h : a ≤ b ∧ b < a + (vs.length + 1)
      · obtain ⟨k, hk⟩ : ∃ k, b - a = k + 1 := ⟨b - a - 1, by omega⟩
        rw [if_pos (by omega), if_pos h, hk, List.getElem?_cons_succ, show b - (a + 1) = k by omega]
      · rw [if_neg (by omega), if_neg hb, if_neg h]

/-- A run of bytes can be read exactly when every byte of it holds a value, and then it is those values. -/
theorem Memory.readBytes_eq_some {m : Memory} {a n : Nat} {vs : List Byte} :
    m.readBytes a n = some vs ↔ vs.length = n ∧ ∀ j, j < n → m.read (a + j) = vs[j]? := by
  induction n generalizing a vs with
  | zero =>
    simp only [Memory.readBytes, Option.some.injEq]
    constructor
    · rintro rfl; simp
    · rintro ⟨h, -⟩; exact (List.length_eq_zero_iff.1 h).symm
  | succ n ih =>
    simp only [Memory.readBytes]
    constructor
    · intro h
      split at h
      · rename_i v ws hv hw
        cases h
        obtain ⟨hl, hr⟩ := ih.1 hw
        refine ⟨by simp [hl], fun j hj => ?_⟩
        cases j with
        | zero => simpa using hv
        | succ j => simpa [Nat.add_comm, Nat.add_left_comm] using hr j (by omega)
      · cases h
    · rintro ⟨hl, hr⟩
      cases vs with
      | nil => simp at hl
      | cons v ws =>
        have h0 : m.read a = some v := by simpa using hr 0 (by omega)
        have hw : m.readBytes (a + 1) n = some ws := ih.2 ⟨by simpa using hl, fun j hj => by
          simpa [Nat.add_comm, Nat.add_left_comm] using hr (j + 1) (by omega)⟩
        simp [h0, hw]

end Sys2Proof.Machine
end

