-- ==== Sys2Proof/Laws/Invariant.lean ====
section
/-! SUPPORT. What establishes the parts of the invariant: a fresh cache, a store, an engine that has just taken a
call. -/

namespace Sys2Proof.Safety

open Sys2Proof.Machine

theorem cacheInv_fresh : CacheInv Cache.fresh := fun k => .inl (Cache.read_fresh k)

/-- A store keeps the cache invariant (R148). -/
theorem cacheInv_store {c : Cache} (h : CacheInv c) (p : Pixel) : CacheInv (c.store p) := by
  intro k
  rw [Cache.read_store]
  split
  · rename_i e
    exact .inr e.symm
  · exact h k

/-- An encoder that has just taken a call meets its invariant. -/
theorem encInv_accept (hdr : Header) (buf : List Byte) : EncInv (Enc.accept hdr buf) where
  cache := cacheInv_fresh
  prevHits := Cache.read_fresh _
  prevOp := fun _ h => nomatch h
  run := Nat.zero_le _
  runOp := fun h => absurd h (Nat.lt_irrefl 0)
  noResult := fun _ => rfl
  doneResult := fun h => nomatch h
  errorResult := fun h => nomatch h
  fresh := fun _ _ => rfl
  loop := fun _ h => absurd rfl h

/-- A decoder that has just taken a call meets its invariant. -/
theorem decInv_accept (bytes : List Byte) : DecInv (Dec.accept bytes) where
  cache := cacheInv_fresh
  prevHits := Cache.read_fresh _
  lastOp := fun _ h => nomatch h
  pending := Nat.zero_le _
  pendingOp := fun h => absurd h (Nat.lt_irrefl 0)
  outWf := List.Pairwise.nil
  noResult := fun _ => rfl
  doneResult := fun h => nomatch h
  errorResult := fun h => nomatch h
  fresh := fun _ _ => rfl
  loop := fun _ h => absurd rfl h

end Sys2Proof.Safety
end

