-- ==== Sys2Proof/Laws/State.lean ====
section
/-! SUPPORT. One lemma per field per update of the state, true by rfl: no proof needs to unfold a record update. -/

namespace Sys2Proof.Machine

@[simp] theorem withEnc_enc (s : State) (e : Enc) : (s.withEnc e).enc = e := rfl
@[simp] theorem withDec_enc (s : State) (d : Dec) : (s.withDec d).enc = s.enc := rfl
@[simp] theorem withEnc_dec (s : State) (e : Enc) : (s.withEnc e).dec = s.dec := rfl
@[simp] theorem withDec_dec (s : State) (d : Dec) : (s.withDec d).dec = d := rfl
@[simp] theorem withEnc_host (s : State) (e : Enc) : (s.withEnc e).host = s.host := rfl
@[simp] theorem withDec_host (s : State) (d : Dec) : (s.withDec d).host = s.host := rfl
@[simp] theorem withEnc_delivered (s : State) (e : Enc) : (s.withEnc e).delivered = s.delivered := rfl
@[simp] theorem withDec_delivered (s : State) (d : Dec) : (s.withDec d).delivered = s.delivered := rfl
@[simp] theorem withDec_withDec (s : State) (d d' : Dec) : (s.withDec d).withDec d' = s.withDec d' := rfl
@[simp] theorem withEnc_withEnc (s : State) (e e' : Enc) : (s.withEnc e).withEnc e' = s.withEnc e' := rfl
@[simp] theorem withDec_self (s : State) : s.withDec s.dec = s := rfl
@[simp] theorem withEnc_self (s : State) : s.withEnc s.enc = s := rfl

@[simp] theorem produced_phase (d : Dec) (op : Instr) (px : Pixel) (m : Memory) : (d.produced op px m).phase = d.phase := rfl
@[simp] theorem produced_cache (d : Dec) (op : Instr) (px : Pixel) (m : Memory) : (d.produced op px m).cache = d.cache.store px := rfl
@[simp] theorem produced_prev (d : Dec) (op : Instr) (px : Pixel) (m : Memory) : (d.produced op px m).prev = px := rfl
@[simp] theorem produced_lastOp (d : Dec) (op : Instr) (px : Pixel) (m : Memory) : (d.produced op px m).lastOp = some op := rfl
@[simp] theorem produced_pending (d : Dec) (op : Instr) (px : Pixel) (m : Memory) : (d.produced op px m).pending = d.pending := rfl
@[simp] theorem produced_rd (d : Dec) (op : Instr) (px : Pixel) (m : Memory) : (d.produced op px m).rd = d.rd := rfl
@[simp] theorem produced_wr (d : Dec) (op : Instr) (px : Pixel) (m : Memory) : (d.produced op px m).wr = d.wr + d.hdr.channels.toNat := rfl
@[simp] theorem produced_out (d : Dec) (op : Instr) (px : Pixel) (m : Memory) : (d.produced op px m).out = m := rfl
@[simp] theorem produced_hdr (d : Dec) (op : Instr) (px : Pixel) (m : Memory) : (d.produced op px m).hdr = d.hdr := rfl
@[simp] theorem produced_inp (d : Dec) (op : Instr) (px : Pixel) (m : Memory) : (d.produced op px m).inp = d.inp := rfl
@[simp] theorem produced_result (d : Dec) (op : Instr) (px : Pixel) (m : Memory) : (d.produced op px m).result = d.result := rfl

@[simp] theorem decRaise_phase (d : Dec) (e : CallError) : (d.raise e).phase = .error := rfl
@[simp] theorem decRaise_cache (d : Dec) (e : CallError) : (d.raise e).cache = d.cache := rfl
@[simp] theorem decRaise_prev (d : Dec) (e : CallError) : (d.raise e).prev = d.prev := rfl
@[simp] theorem decRaise_lastOp (d : Dec) (e : CallError) : (d.raise e).lastOp = d.lastOp := rfl
@[simp] theorem decRaise_pending (d : Dec) (e : CallError) : (d.raise e).pending = d.pending := rfl
@[simp] theorem decRaise_rd (d : Dec) (e : CallError) : (d.raise e).rd = d.rd := rfl
@[simp] theorem decRaise_wr (d : Dec) (e : CallError) : (d.raise e).wr = d.wr := rfl
@[simp] theorem decRaise_out (d : Dec) (e : CallError) : (d.raise e).out = [] := rfl
@[simp] theorem decRaise_hdr (d : Dec) (e : CallError) : (d.raise e).hdr = d.hdr := rfl
@[simp] theorem decRaise_inp (d : Dec) (e : CallError) : (d.raise e).inp = d.inp := rfl
@[simp] theorem decRaise_result (d : Dec) (e : CallError) : (d.raise e).result = some (.error e) := rfl

@[simp] theorem decFinish_phase (d : Dec) (raw : List Byte) : (d.finish raw).phase = .done := rfl
@[simp] theorem decFinish_cache (d : Dec) (raw : List Byte) : (d.finish raw).cache = d.cache := rfl
@[simp] theorem decFinish_prev (d : Dec) (raw : List Byte) : (d.finish raw).prev = d.prev := rfl
@[simp] theorem decFinish_lastOp (d : Dec) (raw : List Byte) : (d.finish raw).lastOp = d.lastOp := rfl
@[simp] theorem decFinish_pending (d : Dec) (raw : List Byte) : (d.finish raw).pending = d.pending := rfl
@[simp] theorem decFinish_rd (d : Dec) (raw : List Byte) : (d.finish raw).rd = d.rd := rfl
@[simp] theorem decFinish_wr (d : Dec) (raw : List Byte) : (d.finish raw).wr = d.wr := rfl
@[simp] theorem decFinish_out (d : Dec) (raw : List Byte) : (d.finish raw).out = d.out := rfl
@[simp] theorem decFinish_hdr (d : Dec) (raw : List Byte) : (d.finish raw).hdr = d.hdr := rfl
@[simp] theorem decFinish_inp (d : Dec) (raw : List Byte) : (d.finish raw).inp = d.inp := rfl
@[simp] theorem decFinish_result (d : Dec) (raw : List Byte) : (d.finish raw).result = some (.ok d.hdr raw) := rfl

@[simp] theorem decRelease_phase (d : Dec) : (d.release).phase = .idle := rfl
@[simp] theorem decRelease_cache (d : Dec) : (d.release).cache = d.cache := rfl
@[simp] theorem decRelease_prev (d : Dec) : (d.release).prev = d.prev := rfl
@[simp] theorem decRelease_lastOp (d : Dec) : (d.release).lastOp = d.lastOp := rfl
@[simp] theorem decRelease_pending (d : Dec) : (d.release).pending = d.pending := rfl
@[simp] theorem decRelease_rd (d : Dec) : (d.release).rd = d.rd := rfl
@[simp] theorem decRelease_wr (d : Dec) : (d.release).wr = d.wr := rfl
@[simp] theorem decRelease_out (d : Dec) : (d.release).out = d.out := rfl
@[simp] theorem decRelease_hdr (d : Dec) : (d.release).hdr = d.hdr := rfl
@[simp] theorem decRelease_inp (d : Dec) : (d.release).inp = d.inp := rfl
@[simp] theorem decRelease_result (d : Dec) : (d.release).result = none := rfl

@[simp] theorem decAccept_phase (bs : List Byte) : (Dec.accept bs).phase = .active := rfl
@[simp] theorem decAccept_cache (bs : List Byte) : (Dec.accept bs).cache = Cache.fresh := rfl
@[simp] theorem decAccept_prev (bs : List Byte) : (Dec.accept bs).prev = Pixel.opaqueBlack := rfl
@[simp] theorem decAccept_lastOp (bs : List Byte) : (Dec.accept bs).lastOp = none := rfl
@[simp] theorem decAccept_pending (bs : List Byte) : (Dec.accept bs).pending = 0 := rfl
@[simp] theorem decAccept_rd (bs : List Byte) : (Dec.accept bs).rd = 0 := rfl
@[simp] theorem decAccept_wr (bs : List Byte) : (Dec.accept bs).wr = 0 := rfl
@[simp] theorem decAccept_out (bs : List Byte) : (Dec.accept bs).out = [] := rfl
@[simp] theorem decAccept_hdr (bs : List Byte) : (Dec.accept bs).hdr = Header.unwritten := rfl
@[simp] theorem decAccept_inp (bs : List Byte) : (Dec.accept bs).inp = bs := rfl
@[simp] theorem decAccept_result (bs : List Byte) : (Dec.accept bs).result = none := rfl

@[simp] theorem encRaise_phase (e : Enc) (r : ValidationReason) : (e.raise r).phase = .error := rfl
@[simp] theorem encRaise_cache (e : Enc) (r : ValidationReason) : (e.raise r).cache = e.cache := rfl
@[simp] theorem encRaise_prev (e : Enc) (r : ValidationReason) : (e.raise r).prev = e.prev := rfl
@[simp] theorem encRaise_prevOp (e : Enc) (r : ValidationReason) : (e.raise r).prevOp = e.prevOp := rfl
@[simp] theorem encRaise_run (e : Enc) (r : ValidationReason) : (e.raise r).run = e.run := rfl
@[simp] theorem encRaise_i (e : Enc) (r : ValidationReason) : (e.raise r).i = e.i := rfl
@[simp] theorem encRaise_out (e : Enc) (r : ValidationReason) : (e.raise r).out = [] := rfl
@[simp] theorem encRaise_hdr (e : Enc) (r : ValidationReason) : (e.raise r).hdr = e.hdr := rfl
@[simp] theorem encRaise_buf (e : Enc) (r : ValidationReason) : (e.raise r).buf = e.buf := rfl
@[simp] theorem encRaise_result (e : Enc) (r : ValidationReason) : (e.raise r).result = some (.validationError r) := rfl

@[simp] theorem encFinish_phase (e : Enc) : (e.finish).phase = .done := rfl
@[simp] theorem encFinish_cache (e : Enc) : (e.finish).cache = e.cache := rfl
@[simp] theorem encFinish_prev (e : Enc) : (e.finish).prev = e.prev := rfl
@[simp] theorem encFinish_prevOp (e : Enc) : (e.finish).prevOp = e.prevOp := rfl
@[simp] theorem encFinish_run (e : Enc) : (e.finish).run = e.run := rfl
@[simp] theorem encFinish_i (e : Enc) : (e.finish).i = e.i := rfl
@[simp] theorem encFinish_out (e : Enc) : (e.finish).out = e.out := rfl
@[simp] theorem encFinish_hdr (e : Enc) : (e.finish).hdr = e.hdr := rfl
@[simp] theorem encFinish_buf (e : Enc) : (e.finish).buf = e.buf := rfl
@[simp] theorem encFinish_result (e : Enc) : (e.finish).result = some (.ok e.out) := rfl

@[simp] theorem encRelease_phase (e : Enc) : (e.release).phase = .idle := rfl
@[simp] theorem encRelease_cache (e : Enc) : (e.release).cache = e.cache := rfl
@[simp] theorem encRelease_prev (e : Enc) : (e.release).prev = e.prev := rfl
@[simp] theorem encRelease_prevOp (e : Enc) : (e.release).prevOp = e.prevOp := rfl
@[simp] theorem encRelease_run (e : Enc) : (e.release).run = e.run := rfl
@[simp] theorem encRelease_i (e : Enc) : (e.release).i = e.i := rfl
@[simp] theorem encRelease_out (e : Enc) : (e.release).out = e.out := rfl
@[simp] theorem encRelease_hdr (e : Enc) : (e.release).hdr = e.hdr := rfl
@[simp] theorem encRelease_buf (e : Enc) : (e.release).buf = e.buf := rfl
@[simp] theorem encRelease_result (e : Enc) : (e.release).result = none := rfl

@[simp] theorem encAccept_phase (h : Header) (buf : List Byte) : (Enc.accept h buf).phase = .active := rfl
@[simp] theorem encAccept_cache (h : Header) (buf : List Byte) : (Enc.accept h buf).cache = Cache.fresh := rfl
@[simp] theorem encAccept_prev (h : Header) (buf : List Byte) : (Enc.accept h buf).prev = Pixel.opaqueBlack := rfl
@[simp] theorem encAccept_prevOp (h : Header) (buf : List Byte) : (Enc.accept h buf).prevOp = none := rfl
@[simp] theorem encAccept_run (h : Header) (buf : List Byte) : (Enc.accept h buf).run = 0 := rfl
@[simp] theorem encAccept_i (h : Header) (buf : List Byte) : (Enc.accept h buf).i = 0 := rfl
@[simp] theorem encAccept_out (h : Header) (buf : List Byte) : (Enc.accept h buf).out = [] := rfl
@[simp] theorem encAccept_hdr (h : Header) (buf : List Byte) : (Enc.accept h buf).hdr = h := rfl
@[simp] theorem encAccept_buf (h : Header) (buf : List Byte) : (Enc.accept h buf).buf = buf := rfl
@[simp] theorem encAccept_result (h : Header) (buf : List Byte) : (Enc.accept h buf).result = none := rfl

@[simp] theorem emit_phase (e : Enc) (bs : List Byte) : (e.emit bs).phase = e.phase := rfl
@[simp] theorem emit_cache (e : Enc) (bs : List Byte) : (e.emit bs).cache = e.cache := rfl
@[simp] theorem emit_prev (e : Enc) (bs : List Byte) : (e.emit bs).prev = e.prev := rfl
@[simp] theorem emit_prevOp (e : Enc) (bs : List Byte) : (e.emit bs).prevOp = e.prevOp := rfl
@[simp] theorem emit_run (e : Enc) (bs : List Byte) : (e.emit bs).run = e.run := rfl
@[simp] theorem emit_i (e : Enc) (bs : List Byte) : (e.emit bs).i = e.i := rfl
@[simp] theorem emit_out (e : Enc) (bs : List Byte) : (e.emit bs).out = e.out ++ bs := rfl
@[simp] theorem emit_hdr (e : Enc) (bs : List Byte) : (e.emit bs).hdr = e.hdr := rfl
@[simp] theorem emit_buf (e : Enc) (bs : List Byte) : (e.emit bs).buf = e.buf := rfl
@[simp] theorem emit_result (e : Enc) (bs : List Byte) : (e.emit bs).result = e.result := rfl

@[simp] theorem flushRun_phase (e : Enc) : (e.flushRun).phase = e.phase := rfl
@[simp] theorem flushRun_cache (e : Enc) : (e.flushRun).cache = e.cache := rfl
@[simp] theorem flushRun_prev (e : Enc) : (e.flushRun).prev = e.prev := rfl
@[simp] theorem flushRun_prevOp (e : Enc) : (e.flushRun).prevOp = e.prevOp := rfl
@[simp] theorem flushRun_run (e : Enc) : (e.flushRun).run = 0 := rfl
@[simp] theorem flushRun_i (e : Enc) : (e.flushRun).i = e.i := rfl
@[simp] theorem flushRun_out (e : Enc) : (e.flushRun).out = e.out ++ encode (.run (runField e.run)) := rfl
@[simp] theorem flushRun_hdr (e : Enc) : (e.flushRun).hdr = e.hdr := rfl
@[simp] theorem flushRun_buf (e : Enc) : (e.flushRun).buf = e.buf := rfl
@[simp] theorem flushRun_result (e : Enc) : (e.flushRun).result = e.result := rfl

@[simp] theorem withPending_phase (d : Dec) (n : Nat) : (d.withPending n).phase = d.phase := rfl
@[simp] theorem withPending_cache (d : Dec) (n : Nat) : (d.withPending n).cache = d.cache := rfl
@[simp] theorem withPending_prev (d : Dec) (n : Nat) : (d.withPending n).prev = d.prev := rfl
@[simp] theorem withPending_lastOp (d : Dec) (n : Nat) : (d.withPending n).lastOp = d.lastOp := rfl
@[simp] theorem withPending_pending (d : Dec) (n : Nat) : (d.withPending n).pending = n := rfl
@[simp] theorem withPending_rd (d : Dec) (n : Nat) : (d.withPending n).rd = d.rd := rfl
@[simp] theorem withPending_wr (d : Dec) (n : Nat) : (d.withPending n).wr = d.wr := rfl
@[simp] theorem withPending_out (d : Dec) (n : Nat) : (d.withPending n).out = d.out := rfl
@[simp] theorem withPending_hdr (d : Dec) (n : Nat) : (d.withPending n).hdr = d.hdr := rfl
@[simp] theorem withPending_inp (d : Dec) (n : Nat) : (d.withPending n).inp = d.inp := rfl
@[simp] theorem withPending_result (d : Dec) (n : Nat) : (d.withPending n).result = d.result := rfl
@[simp] theorem withRd_phase (d : Dec) (n : Nat) : (d.withRd n).phase = d.phase := rfl
@[simp] theorem withRd_cache (d : Dec) (n : Nat) : (d.withRd n).cache = d.cache := rfl
@[simp] theorem withRd_prev (d : Dec) (n : Nat) : (d.withRd n).prev = d.prev := rfl
@[simp] theorem withRd_lastOp (d : Dec) (n : Nat) : (d.withRd n).lastOp = d.lastOp := rfl
@[simp] theorem withRd_pending (d : Dec) (n : Nat) : (d.withRd n).pending = d.pending := rfl
@[simp] theorem withRd_rd (d : Dec) (n : Nat) : (d.withRd n).rd = n := rfl
@[simp] theorem withRd_wr (d : Dec) (n : Nat) : (d.withRd n).wr = d.wr := rfl
@[simp] theorem withRd_out (d : Dec) (n : Nat) : (d.withRd n).out = d.out := rfl
@[simp] theorem withRd_hdr (d : Dec) (n : Nat) : (d.withRd n).hdr = d.hdr := rfl
@[simp] theorem withRd_inp (d : Dec) (n : Nat) : (d.withRd n).inp = d.inp := rfl
@[simp] theorem withRd_result (d : Dec) (n : Nat) : (d.withRd n).result = d.result := rfl

end Sys2Proof.Machine
end

