-- ==== Sys2Proof/Laws/Ops.lean ====
section
/-! SUPPORT. What each shared operation can do, said once: sequencing, the pixel read and write, and `produce`. -/

namespace Sys2Proof.Machine

@[simp] theorem andThen_next {σ τ : Type} (s : σ) (f : σ → Out τ) : andThen (.next s) f = f s := rfl

@[simp] theorem andThen_fault {σ τ : Type} (r : Fault) (f : σ → Out τ) :
    andThen (.fault r) f = .fault r := rfl

@[simp] theorem andThen_refused {σ τ : Type} (r : Refusal) (f : σ → Out τ) :
    andThen (.refused r) f = .refused r := rfl

theorem andThen_eq_next {σ τ : Type} {o : Out σ} {f : σ → Out τ} {t : τ} (h : andThen o f = .next t) :
    ∃ s, o = .next s ∧ f s = .next t := by
  cases o with
  | next s => exact ⟨s, rfl, h⟩
  | fault r => cases h
  | refused r => cases h

theorem pixelBytes_length (ch : Byte) (p : Pixel) : (pixelBytes ch p).length = if ch = 4 then 4 else 3 := by
  unfold pixelBytes; split <;> rfl

/-- `PixelOut` inside the OUT space is the write of the pixel's bytes. -/
theorem pixelOut_of_fits {h : Header} {w : Nat} (hw : w + (if h.channels = 4 then 4 else 3) ≤ h.outLen)
    (m : Memory) (p : Pixel) : pixelOut h m w p = some (m.writeBytes w (pixelBytes h.channels p)) := by
  rw [pixelOut, pixelBytes_length, if_pos hw]

/-- `PixelOut` that would leave the OUT space. -/
theorem pixelOut_of_not_fits {h : Header} {w : Nat} (hw : ¬ w + (if h.channels = 4 then 4 else 3) ≤ h.outLen)
    (m : Memory) (p : Pixel) : pixelOut h m w p = none := by
  rw [pixelOut, pixelBytes_length, if_neg hw]

/-- Everything `produce` can answer with: the produced pixel in a next state, or the fault. -/
theorem produce_eq_next {op : Instr} {px : Pixel} {s t : State} (h : produce op px s = .next t) :
    ∃ m, pixelOut s.dec.hdr s.dec.out s.dec.wr px = some m ∧ t = s.withDec (s.dec.produced op px m) := by
  unfold produce at h
  split at h
  · rename_i m hm
    cases h
    exact ⟨m, hm, rfl⟩
  · cases h

/-- The pixel that `Apply` gives for an opcode that produces one (`42_opcodes.md` R173), in the decoder's present
registers; DEFAULT for RUN and NONE, which are never applied. -/
def applied (i : Instr) (d : Dec) : Pixel :=
  match i with
  | .index k => applyIndex k d.cache
  | .diff dr dg db => applyDiff dr dg db d.prev
  | .luma dg drg dbg => applyLuma dg drg dbg d.prev
  | .rgb r g b => applyRgb r g b
  | .rgba r g b a => applyRgba r g b a
  | .run _ => Pixel.opaqueBlack
  | .none => Pixel.opaqueBlack

/-- Every opcode that produces a pixel is `produce` of the pixel that `Apply` gives. -/
theorem exec_of_producesPixel {i : Instr} (h : i.producesPixel = true) (s : State) :
    exec i s = produce i (applied i s.dec) s := by
  cases i with
  | index _ => rfl
  | diff _ _ _ => rfl
  | luma _ _ _ => rfl
  | rgb _ _ _ => rfl
  | rgba _ _ _ _ => rfl
  | run _ => cases h
  | none => cases h

/-- Everything an instruction can do to the state in a next state: a pixel produced, the pending counter loaded, or an
error raised. -/
theorem exec_eq_next {i : Instr} {s t : State} (h : exec i s = .next t) :
    (i.producesPixel = true ∧ ∃ m, pixelOut s.dec.hdr s.dec.out s.dec.wr (applied i s.dec) = some m ∧
      t = s.withDec (s.dec.produced i (applied i s.dec) m)) ∨
    (∃ n op, i = .run n ∧ s.dec.lastOp = some op ∧ t = s.withDec (s.dec.withPending (runLength n))) ∨
    (∃ r e, (i = .none ∧ r = s.dec.rd ∨ ∃ n, i = .run n ∧ s.dec.lastOp = none ∧ r = s.dec.rd - 1) ∧
      t = s.withDec ((s.dec.withRd r).raise e)) := by
  by_cases hp : i.producesPixel = true
  · rw [exec_of_producesPixel hp] at h
    exact .inl ⟨hp, produce_eq_next h⟩
  · cases i with
    | run n =>
      simp only [exec, execRun] at h
      split at h
      · rename_i op hop
        cases h
        exact .inr (.inl ⟨n, op, rfl, hop, rfl⟩)
      · rename_i hop
        cases h
        exact .inr (.inr ⟨_, _, .inr ⟨n, rfl, hop, rfl⟩, rfl⟩)
    | none => cases h; exact .inr (.inr ⟨s.dec.rd, _, .inl ⟨rfl, rfl⟩, rfl⟩)
    | index _ => exact absurd rfl hp
    | diff _ _ _ => exact absurd rfl hp
    | luma _ _ _ => exact absurd rfl hp
    | rgb _ _ _ => exact absurd rfl hp
    | rgba _ _ _ _ => exact absurd rfl hp

end Sys2Proof.Machine
end

