-- ==== Sys2Proof/Laws/PerInstr.lean ====
section
/-! SUPPORT. The statements about an instruction as syntax, one lemma per constructor. -/

/-- The serialization of a well-formed opcode begins with a byte of its own class and has the length of that class
(`30_encoding.md` R91, R101). -/
def Sys2Proof.Laws.EncodedLength.Statement (i : Sys2Proof.Instr) : Prop :=
  i.wellFormed = true → ∃ t rest, Sys2Proof.encode i = t :: rest ∧
    (Sys2Proof.encode i).length = (Sys2Proof.classify t).length

namespace Sys2Proof.Laws.EncodedLength

theorem index (k : Slot) : Statement (.index k) := fun _ => ⟨_, _, rfl, by
  revert k; decide⟩

theorem diff (dr dg db : BitVec 2) : Statement (.diff dr dg db) := fun _ => ⟨_, _, rfl, by
  revert dr dg db; decide⟩

theorem luma (dg : BitVec 6) (drg dbg : BitVec 4) : Statement (.luma dg drg dbg) := fun _ => ⟨_, _, rfl, by
  have h : ∀ g : BitVec 6, (classify (0b10#2 ++ g)).length = 2 := by decide
  rw [h]; rfl⟩

theorem run (n : BitVec 6) : Statement (.run n) := fun h => ⟨_, _, rfl, by
  revert h; revert n; decide⟩

theorem rgb (r g b : Byte) : Statement (.rgb r g b) := fun _ => ⟨_, _, rfl, rfl⟩

theorem rgba (r g b a : Byte) : Statement (.rgba r g b a) := fun _ => ⟨_, _, rfl, rfl⟩

theorem none : Statement .none := fun h => by cases h

end Sys2Proof.Laws.EncodedLength
end

