-- ==== Sys2Proof/Laws/Step.lean ====
section
/-! SUPPORT. What a step can do, said once: the host's move, the encoder's, the decoder's. -/

namespace Sys2Proof.Machine

/-- The host does not touch an ACTIVE encoder (R30). -/
theorem hostMove_enc_of_active {s : State} (h : s.enc.phase = .active) : (hostMove s).enc = s.enc := by
  unfold hostMove
  split
  · rfl
  · simp [h]
  · split <;> rfl
  · simp [h]
  · split
    · split <;> rfl
    · rfl
  · rfl

/-- The host does not touch an ACTIVE decoder (R30). -/
theorem hostMove_dec_of_active {s : State} (h : s.dec.phase = .active) : (hostMove s).dec = s.dec := by
  unfold hostMove
  split
  · rfl
  · split <;> rfl
  · simp [h]
  · split
    · split <;> rfl
    · rfl
  · simp [h]
  · rfl

/-- The host does to the encoder nothing, or a call, or the taking of its result. -/
theorem hostMove_enc_cases (s : State) :
    (hostMove s).enc = s.enc ∨ (∃ h b, s.enc.phase = .idle ∧ (hostMove s).enc = Enc.accept h b) ∨
      ((s.enc.phase = .done ∨ s.enc.phase = .error) ∧ (hostMove s).enc = s.enc.release) := by
  unfold hostMove
  split
  · exact .inl rfl
  · split
    · rename_i hp; exact .inr (.inl ⟨_, _, hp, rfl⟩)
    · exact .inl rfl
  · split <;> exact .inl rfl
  · split
    · rename_i hp
      split
      · exact .inr (.inr ⟨hp, rfl⟩)
      · exact .inl rfl
    · exact .inl rfl
  · split
    · split <;> exact .inl rfl
    · exact .inl rfl
  · exact .inl rfl

/-- The host does to the decoder nothing, or a call, or the taking of its result. -/
theorem hostMove_dec_cases (s : State) :
    (hostMove s).dec = s.dec ∨ (∃ b, s.dec.phase = .idle ∧ (hostMove s).dec = Dec.accept b) ∨
      ((s.dec.phase = .done ∨ s.dec.phase = .error) ∧ (hostMove s).dec = s.dec.release) := by
  unfold hostMove
  split
  · exact .inl rfl
  · split <;> exact .inl rfl
  · split
    · rename_i hp; exact .inr (.inl ⟨_, hp, rfl⟩)
    · exact .inl rfl
  · split
    · split <;> exact .inl rfl
    · exact .inl rfl
  · split
    · rename_i hp
      split
      · exact .inr (.inr ⟨hp, rfl⟩)
      · exact .inl rfl
    · exact .inl rfl
  · exact .inl rfl

/-- The first half of a step, when it goes on: the host has moved, and the encoder has moved if it was ACTIVE. -/
theorem encMove_eq_next {P : Params} {s h : State} (he : encMove P s = .next h) :
    h.dec = (hostMove s).dec ∧ h.host = (hostMove s).host ∧ h.delivered = (hostMove s).delivered ∧
      (if s.enc.phase = .active then encTick P s.enc = .next h.enc else h.enc = (hostMove s).enc) := by
  unfold encMove at he
  split at he
  · rename_i hp
    obtain ⟨e, h1, h2⟩ := andThen_eq_next he
    cases h2
    simp [hp, h1]
  · rename_i hp
    cases he
    simp [hp]

/-- What a decoder move leaves alone: everything but the decoder. -/
theorem exec_frame {i : Instr} {s t : State} (h : exec i s = .next t) :
    t.enc = s.enc ∧ t.host = s.host ∧ t.delivered = s.delivered := by
  rcases exec_eq_next h with ⟨-, m, -, rfl⟩ | ⟨n, op, -, -, rfl⟩ | ⟨r, e, -, rfl⟩ <;> simp

theorem decTick_frame {P : Params} {s t : State} (h : decTick P s = .next t) :
    t.enc = s.enc ∧ t.host = s.host ∧ t.delivered = s.delivered := by
  unfold decTick at h
  split at h
  · cases h; simp
  · split at h
    · unfold decStep at h
      split at h
      · unfold decRepeat at h
        split at h
        · split at h
          · simpa using exec_frame h
          · cases h
        · cases h
      · unfold decParse at h
        split at h
        · cases h; simp
        · split at h
          · exact exec_frame h
          · simpa using exec_frame h
    · obtain ⟨d, -, h2⟩ := andThen_eq_next h
      cases h2; simp

/-- What a whole step does, when it goes on: the encoder's part, the decoder's part, and the host's. -/
theorem stepWith_eq_next {P : Params} {s t : State} (h : stepWith P s = .next t) :
    ∃ u, encMove P s = .next u ∧ t.enc = u.enc ∧ t.host = (hostMove s).host ∧
      t.delivered = (hostMove s).delivered ∧ u.dec = (hostMove s).dec ∧
      (if s.dec.phase = .active then decTick P u = .next t else t = u) := by
  obtain ⟨u, h1, h2⟩ := andThen_eq_next h
  obtain ⟨ed, eh, el, -⟩ := encMove_eq_next h1
  refine ⟨u, h1, ?_⟩
  unfold decMove at h2
  by_cases hp : s.dec.phase = .active
  · simp only [hp, decide_true, if_true] at h2
    obtain ⟨f1, f2, f3⟩ := decTick_frame h2
    simp [hp, f1, f2, f3, ed, eh, el, h2]
  · simp only [hp, decide_false] at h2
    cases h2
    simp [hp, ed, eh, el]

/-- An encoder that was ACTIVE has made one move of its own. -/
theorem stepWith_enc_of_active {P : Params} {s t : State} (h : stepWith P s = .next t)
    (hp : s.enc.phase = .active) : encTick P s.enc = .next t.enc := by
  obtain ⟨u, h1, he, -⟩ := stepWith_eq_next h
  obtain ⟨-, -, -, h4⟩ := encMove_eq_next h1
  simpa [hp, he] using h4

/-- An encoder that was not ACTIVE has what the host has done to it. -/
theorem stepWith_enc_of_not_active {P : Params} {s t : State} (h : stepWith P s = .next t)
    (hp : s.enc.phase ≠ .active) : t.enc = (hostMove s).enc := by
  obtain ⟨u, h1, he, -⟩ := stepWith_eq_next h
  obtain ⟨-, -, -, h4⟩ := encMove_eq_next h1
  simpa [hp, he] using h4

/-- A decoder that was not ACTIVE has what the host has done to it. -/
theorem stepWith_dec_of_not_active {P : Params} {s t : State} (h : stepWith P s = .next t)
    (hp : s.dec.phase ≠ .active) : t.dec = (hostMove s).dec := by
  obtain ⟨u, -, -, -, -, hd, h6⟩ := stepWith_eq_next h
  simp only [hp, if_false] at h6
  rw [h6, hd]

/-- The step of this block is the step with its parameters. -/
theorem step_eq (s : State) : step s = stepWith Config.params s := rfl

end Sys2Proof.Machine
end

