-- ==== Sys2Proof/Tests/Slice0.lean ====
section
/-! SUPPORT. Tests: expected values come from the spec's own examples and vectors (named in each docstring), and a
concrete state and operands that meet the hypotheses of each obligation together (`witness_<obligation>`). -/

namespace Sys2Proof.Tests

open Sys2Proof Sys2Proof.Machine Sys2Proof.Safety

/-! ### Well-formedness and decoding -/

/-- RUN 62 and 63 have no encoding (R95). -/
theorem test_run_62_63_ill_formed :
    (Instr.run 62).wellFormed = false ∧ (Instr.run 63).wellFormed = false ∧ (Instr.run 61).wellFormed = true := by
  decide

/-- NONE is never serialized (R98). -/
theorem test_none_ill_formed : Instr.none.wellFormed = false := by decide

/-- R92 `00kkkkkk`, k = 53 (R175, R176). -/
theorem test_decode_index : decode [0b00110101] = .ok (.index 53) 1 ∧ decode [0x0B] = .ok (.index 11) 1 := by decide

/-- R93 `01rrggbb`: 0x5B (R179), 0x6A (R178). -/
theorem test_decode_diff :
    decode [0b01011011] = .ok (.diff 1 2 3) 1 ∧ decode [0x6A] = .ok (.diff 2 2 2) 1 := by decide

/-- R94 `10gggggg rrrrbbbb`: 0xBF 0xF0 (R182); 0xAA 0x88 (R181). -/
theorem test_decode_luma :
    decode [0b10111111, 0b11110000] = .ok (.luma 63 15 0) 2 ∧ decode [0xAA, 0x88] = .ok (.luma 42 8 8) 2 := by decide

/-- R95 `11nnnnnn`: 0xC0, 0xFD (R184, R185). -/
theorem test_decode_run : decode [0b11000000] = .ok (.run 0) 1 ∧ decode [0xFD] = .ok (.run 61) 1 := by decide

/-- R96: the example of R192. -/
theorem test_decode_rgb : decode [0xFE, 0x20, 0x20, 0x20] = .ok (.rgb 32 32 32) 4 := by decide

/-- R97: the example of R195. -/
theorem test_decode_rgba : decode [0xFF, 1, 2, 3, 4] = .ok (.rgba 1 2 3 4) 5 := by decide

/-- R197; a truncated opcode of each length (R172). -/
theorem test_none_and_truncated :
    encode .none = [] ∧ decode [] = .underrun ∧ decode [0x80] = .underrun ∧ decode [0xFE, 1, 2] = .underrun ∧
      decode [0xFF, 1, 2, 3] = .underrun := by decide

/-- The examples of R175, R178, R181, R184, R191 and R194. -/
theorem test_encode :
    encode (.index 53) = [0x35] ∧ encode (.diff 3 3 3) = [0x7F] ∧ encode (.luma 42 8 8) = [0xAA, 0x88] ∧
      encode (.run 61) = [0xFD] ∧ encode (.rgb 100 50 25) = [0xFE, 0x64, 0x32, 0x19] ∧
      encode (.rgba 0 0 0 128) = [0xFF, 0x00, 0x00, 0x00, 0x80] := by decide

/-- Bit 0 of a table word is the least significant bit of the first byte; a later byte counts on from it. -/
theorem test_table_words :
    decodeTableWord 8 0x35 = some (.index 53) ∧ decodeTableWord 16 0xF0BF = some (.luma 63 15 0) ∧
      decodeTableWord 40 0x04030201FF = some (.rgba 1 2 3 4) ∧ decodeTableWord 0 0 = none := by decide

/-! ### Units -/

/-- R143's example, and R146. -/
theorem test_pixel_unit :
    rgba ⟨10, 20, 30, 255⟩ = 0x0A141EFF ∧ pixelHash Pixel.opaqueBlack = 53 ∧ pixelHash ⟨40, 32, 24, 255⟩ = 53 ∧
      pixelHash ⟨10, 20, 30, 200⟩ = 44 := by decide

/-- The examples of R236. -/
theorem test_signed_deltas : subSigned 0 255 = 1 ∧ subSigned 255 0 = -1 ∧ s8 (100 - -100) = -56 := by decide

theorem test_reset_memory_wf : State.reset.dec.out.wf := List.Pairwise.nil

/-- A later write to a lower offset stands first; a second write to one offset replaces. -/
theorem test_memory_write :
    Memory.write [(4, 1)] 2 9 = [(2, 9), (4, 1)] ∧ Memory.write [(2, 9), (4, 1)] 4 7 = [(2, 9), (4, 7)] := by decide

/-! ### Small states -/

/-- Parameters for tests: some magic, and no limit. -/
def P0 : Params := ⟨⟨0xDE, 0xAD, 0xBE, 0xEF⟩, none⟩

/-- The bytes of a header under `P0`. -/
def headBytes (h : Header) : List Byte := headerBytes P0.magic h

/-- A decoder in its loop, after the header of a one-row image of `w` pixels and `ch` channels, before its first pixel,
with the given opcode bytes. -/
def loopDec (w : U32) (ch : Byte) (ops : List Byte) : Dec :=
  { Dec.accept (headBytes ⟨w, 1, ch, 0⟩ ++ ops) with hdr := ⟨w, 1, ch, 0⟩, rd := 14 }

/-- A block with that decoder. -/
def loopState (w : U32) (ch : Byte) (ops : List Byte) : State :=
  { State.reset with dec := loopDec w ch ops }

/-- The decoder one pixel later: it has produced (1,1,1,255) by DIFF(3,3,3), and one repetition is pending. -/
def repeatDec : Dec :=
  { Dec.accept (headBytes ⟨2, 1, 3, 0⟩ ++ [0x7F, 0xC0]) with
    hdr := ⟨2, 1, 3, 0⟩
    rd := 16
    wr := 3
    pending := 1
    lastOp := some (.diff 3 3 3)
    prev := ⟨1, 1, 1, 255⟩
    cache := Cache.fresh.store ⟨1, 1, 1, 255⟩
    out := [(0, 1), (1, 1), (2, 1)] }

/-- A block with that decoder, whose encoder has just taken a call for one 3-channel pixel. -/
def repeatState : State :=
  { State.reset with enc := Enc.accept ⟨1, 1, 3, 0⟩ [0, 0, 0], dec := repeatDec }

/-- The decoder after its last pixel. -/
def fullDec (pending : Nat) : Dec :=
  { repeatDec with wr := 6, pending := pending, out := [(0, 1), (1, 1), (2, 1), (3, 2), (4, 2), (5, 2)] }

/-- Both engines have just taken a call: ENCODE of one black 3-channel pixel, and DECODE of its stream. -/
def callState : State :=
  { State.reset with
    enc := Enc.accept ⟨1, 1, 3, 0⟩ [0, 0, 0]
    dec := Dec.accept (headBytes ⟨1, 1, 3, 0⟩ ++ [0x35] ++ endMarker) }

theorem callState_inv : BlockInv callState := ⟨encInv_accept _ _, decInv_accept _⟩

theorem repeatDec_inv : DecInv repeatDec where
  cache := cacheInv_store cacheInv_fresh _
  prevHits := Cache.read_store_own _ _
  lastOp := by intro op h; cases h; rfl
  pending := by decide
  pendingOp := by intro _ h; cases h
  outWf := by decide
  noResult := fun _ => rfl
  doneResult := fun h => nomatch h
  errorResult := fun h => nomatch h
  fresh := by intro _ h; cases h
  loop := by
    intro _ _
    refine ⟨⟨by decide, by decide, by decide, by decide⟩, by decide, by decide, by decide, by decide, fun a => ?_⟩
    rcases a with _ | _ | _ | a
    · decide
    · decide
    · decide
    · simp [repeatDec, Memory.read, Memory.unlisted]

theorem repeatState_inv : BlockInv repeatState := ⟨encInv_accept _ _, repeatDec_inv⟩

/-- An encoder in its loop, at pixel `i` of a one-row 3-channel image of `w` pixels, all of them (1,1,1), which it last
chose DIFF(3,3,3) for, with `run` repeats pending. -/
def loopEnc (w : U32) (i run : Nat) : Enc :=
  { Enc.accept ⟨w, 1, 3, 0⟩ (List.replicate (w.toNat * 3) 1) with
    out := headBytes ⟨w, 1, 3, 0⟩, i := i, run := run, prevOp := some (.diff 3 3 3) }

/-- A block with that encoder. -/
def encLoopState (w : U32) (i run : Nat) : State := { State.reset with enc := loopEnc w i run }

/-- The decoder's registers after an outcome that goes on. -/
def decOf (o : Out State) (f : Dec → Bool) : Bool :=
  match o with
  | .next s => f s.dec
  | .fault _ => false
  | .refused _ => false

/-- The encoder's registers after an outcome that goes on. -/
def encOf (o : Out State) (f : Enc → Bool) : Bool :=
  match o with
  | .next s => f s.enc
  | .fault _ => false
  | .refused _ => false

/-! ### One instruction each -/

/-- DE-11: INDEX of a slot never stored to gives DEFAULT, stored at 53 (R177). -/
theorem test_index : decOf (exec (.index 0) (loopState 1 3 [])) (fun d =>
    d.prev = ⟨0, 0, 0, 255⟩ ∧ d.out = [(0, 0), (1, 0), (2, 0)] ∧ d.lastOp = some (.index 0)) = true := by decide

/-- The example of R180: DIFF(3,0,2) on (255,0,128,7). -/
theorem test_diff : decOf (exec (.diff 3 0 2)
    ((loopState 1 4 []).withDec { loopDec 1 4 [] with prev := ⟨255, 0, 128, 7⟩ })) (fun d =>
    d.prev = ⟨0, 254, 128, 7⟩ ∧ d.wr = 4 ∧ d.out = [(0, 0), (1, 254), (2, 128), (3, 7)]) = true := by decide

/-- The example of R183: LUMA(63,15,0) on DEFAULT. -/
theorem test_luma : decOf (exec (.luma 63 15 0) (loopState 1 4 [])) (fun d =>
    d.prev = ⟨38, 31, 23, 255⟩) = true := by decide

/-- P6: LUMA(63,15,15) on (250,250,250,255) wraps. -/
theorem test_luma_wraps : decOf (exec (.luma 63 15 15)
    ((loopState 1 4 []).withDec { loopDec 1 4 [] with prev := ⟨250, 250, 250, 255⟩ })) (fun d =>
    d.prev = ⟨32, 25, 32, 255⟩ ∧ d.cache.read 50 = ⟨32, 25, 32, 255⟩) = true := by decide

/-- The example of R193: alpha 255 whatever the previous alpha was; stored at slot 33 (ENC-ALPHA-HAZARD). -/
theorem test_rgb : decOf (exec (.rgb 100 0 0)
    ((loopState 1 4 []).withDec { loopDec 1 4 [] with prev := ⟨0, 0, 0, 128⟩ })) (fun d =>
    d.prev = ⟨100, 0, 0, 255⟩ ∧ d.cache.read 33 = ⟨100, 0, 0, 255⟩) = true := by decide

/-- The example of R196. -/
theorem test_rgba : decOf (exec (.rgba 0 0 0 0) (loopState 1 4 [])) (fun d =>
    d.prev = ⟨0, 0, 0, 0⟩ ∧ d.out = [(0, 0), (1, 0), (2, 0), (3, 0)]) = true := by decide

/-- P1: C6 loads pending = 7. -/
theorem test_run : decOf (exec (.run 6) repeatState) (fun d =>
    d.pending = 7 ∧ d.wr = 3 ∧ d.lastOp = some (.diff 3 3 3)) = true := by decide

/-- DE-1: a RUN with nothing to repeat; its step ends the call with the offset of the RUN byte. -/
theorem test_run_without_opcode : decOf (stepWith P0 (loopState 1 3 [0xC0])) (fun d =>
    d.phase = .error ∧ d.result = some (.error (.parse .runWithoutOpcode 14)) ∧ d.out = [] ∧ d.rd = 14) = true := by decide

/-- R198: the error of NONE. -/
theorem test_none : decOf (exec .none (loopState 1 3 [])) (fun d =>
    d.phase = .error ∧ d.result = some (.error (.parse .noneTag 14))) = true := by decide

/-! ### Steps of the engines -/

/-- P1: a repetition of DIFF(3,3,3) goes on from the latest pixel and reads nothing. -/
theorem test_repetition : decOf (stepWith P0 repeatState) (fun d =>
    d.prev = ⟨2, 2, 2, 255⟩ ∧ d.pending = 0 ∧ d.rd = 16 ∧ d.wr = 6) = true := by decide

/-- The word AA 88 placed where the block fetches next runs as LUMA(42,8,8) (R238's example, decoded from DEFAULT). -/
theorem test_placed_word_runs : decOf (step (State.reset.withFetchWord 16 0x88AA)) (fun d =>
    d.prev = ⟨10, 10, 10, 255⟩ ∧ d.rd = 16 ∧ d.wr = 4) = true := by decide

/-- DE-2, DE-5: a truncated RGB, and no opcode at all. -/
theorem test_underrun :
    decOf (stepWith P0 (loopState 1 3 [0xFE, 1, 2])) (fun d =>
      d.result = some (.error (.parse .underrun 14))) = true ∧
    decOf (stepWith P0 (loopState 1 3 [])) (fun d =>
      d.result = some (.error (.parse .underrun 14))) = true := by decide

/-- DE-7: the output is full with a repetition pending. -/
theorem test_overrun : decOf (stepWith P0 { State.reset with dec := fullDec 1 }) (fun d =>
    d.result = some (.error (.parse .overrun 16))) = true := by decide

/-- VA-6, VA-8, VA-9: validation in order. -/
theorem test_decode_validation :
    decOf (stepWith P0 { State.reset with dec := Dec.accept [0xDE, 0xAD, 0xBE, 0xEF, 0, 0, 0, 1, 0, 0, 0, 1, 3] })
      (fun d => d.result = some (.error (.validation .shortHeader))) = true ∧
    decOf (stepWith P0 { State.reset with dec := Dec.accept [1, 2, 3, 4, 0, 0, 0, 0, 0, 0, 0, 0, 0, 9] })
      (fun d => d.result = some (.error (.magicMismatch ⟨0xDE, 0xAD, 0xBE, 0xEF⟩ ⟨1, 2, 3, 4⟩))) = true ∧
    decOf (stepWith P0 { State.reset with dec := Dec.accept [0xDE, 0xAD, 0xBE, 0xEF, 0, 0, 0, 0, 0, 0, 0, 0, 0, 9] })
      (fun d => d.result = some (.error (.validation .widthZero))) = true := by decide

/-- VA-1, VA-3, VA-4: validation in order. -/
theorem test_encode_validation :
    encOf (stepWith P0 { State.reset with enc := Enc.accept ⟨2, 1, 4, 0⟩ [1, 2, 3, 4] }) (fun e =>
      e.result = some (.validationError .lengthMismatch)) = true ∧
    encOf (stepWith P0 { State.reset with enc := Enc.accept ⟨1, 1, 4, 7⟩ [] }) (fun e =>
      e.result = some (.validationError .empty)) = true ∧
    encOf (stepWith P0 { State.reset with enc := Enc.accept ⟨0, 0, 9, 9⟩ [1] }) (fun e =>
      e.result = some (.validationError .widthZero)) = true := by decide

/-- The examples of R233, R237, R238 and R235: the chosen opcodes after DEFAULT on a fresh cache. -/
theorem test_select :
    (select Cache.fresh Pixel.opaqueBlack ⟨0, 0, 0, 255⟩).1 = .index 53 ∧
    (select Cache.fresh Pixel.opaqueBlack ⟨255, 0, 1, 255⟩).1 = .diff 1 2 3 ∧
    (select Cache.fresh Pixel.opaqueBlack ⟨10, 10, 10, 255⟩).1 = .luma 42 8 8 ∧
    (select Cache.fresh Pixel.opaqueBlack ⟨31, 31, 31, 255⟩).1 = .luma 63 8 8 ∧
    (select Cache.fresh Pixel.opaqueBlack ⟨32, 32, 32, 255⟩).1 = .rgb 32 32 32 ∧
    (select Cache.fresh Pixel.opaqueBlack ⟨0, 0, 0, 0⟩).1 = .rgba 0 0 0 0 := by decide

/-- A step that repeats the last opcode at the last pixel flushes its RUN (R242). -/
theorem test_flush_at_last_pixel : encOf (stepWith P0 (encLoopState 2 1 0)) (fun e =>
    e.out = headBytes ⟨2, 1, 3, 0⟩ ++ [0xC0] ∧ e.run = 0 ∧ e.i = 2) = true := by decide

/-! ### Witnesses: the hypotheses of each obligation, met together -/

/-- Each clause at both ends of its range, and one parse. -/
theorem witness_FirstByteFixesClassAndLength :
    classify 0x00 = .index ∧ classify 0x3F = .index ∧ classify 0x40 = .diff ∧ classify 0x7F = .diff ∧
    classify 0x80 = .luma ∧ classify 0xBF = .luma ∧ classify 0xC0 = .run ∧ classify 0xFD = .run ∧
    classify 0xFE = .rgb ∧ classify 0xFF = .rgba ∧ decode (0x80 :: [0]) = .ok (.luma 0 0 0) 2 := by decide

theorem witness_SerializerAndParserAreInverse :
    (Instr.run 61).wellFormed = true ∧ decode (([1, 0xFD] : List Byte).drop 1) = .ok (.run 61) 1 := by decide

theorem witness_OnlyWellFormedOpcodesAreParsed : decode [0xFD] = .ok (.run 61) 1 := by decide

theorem witness_UnderrunExactlyWhenTruncated : decode [0x80] = .underrun ∧ decode [0x80, 0] ≠ .underrun := by decide

theorem witness_OnlyDefaultHitsADefaultSlot :
    (⟨1, 2, 3, 4⟩ : Pixel) ≠ Pixel.opaqueBlack ∧
      Cache.fresh.read (pixelHash ⟨1, 2, 3, 4⟩) = Pixel.opaqueBlack := by decide

/-- The room of one pixel, exactly used, for 3 and for 4 channels: the hypothesis of the five pixel-producing meanings. -/
theorem witness_pixelFits : pixelFits (loopDec 1 3 []) ∧ pixelFits (loopDec 1 4 []) := by
  constructor <;> · unfold pixelFits; decide

theorem witness_RunLoadsThePendingCounter :
    repeatState.dec.lastOp = some (.diff 3 3 3) ∧ (loopState 1 3 []).dec.lastOp = none := by decide

theorem witness_PixelOutsideOutStops :
    (Instr.index 0).producesPixel = true ∧ ¬ pixelFits { loopDec 1 3 [] with wr := 1 } := by
  constructor
  · rfl
  · unfold pixelFits; decide

/-- One for each clause: an opcode that produces a pixel, a RUN with an opcode to repeat, NONE, and a RUN with none. -/
theorem witness_OpcodesChangeOnlyTheirOwnRegisters :
    ((∃ t, exec (.index 0) (loopState 1 3 []) = .next t) ∧ (Instr.index 0).producesPixel = true) ∧
    ((∃ t, exec (.run 0) repeatState = .next t) ∧ repeatState.dec.lastOp ≠ none) ∧
    (∃ t, exec .none repeatState = .next t) ∧
    ((∃ t, exec (.run 0) (loopState 1 3 []) = .next t) ∧ (loopState 1 3 []).dec.lastOp = none) :=
  ⟨⟨⟨_, rfl⟩, rfl⟩, ⟨⟨_, rfl⟩, by decide⟩, ⟨_, rfl⟩, ⟨_, rfl⟩, rfl⟩

theorem witness_StepRunsTheDecodedOpcode :
    inDecLoop (loopState 1 3 [0x35]).dec ∧ (loopState 1 3 [0x35]).dec.pending = 0 ∧
    decode ((loopState 1 3 [0x35]).dec.inp.drop (loopState 1 3 [0x35]).dec.rd) = .ok (.index 53) 1 ∧
    (loopState 1 3 [0x35]).enc.phase ≠ .active ∧ (loopState 1 3 [0x35]).host = [] ∧
    encMove Config.params (loopState 1 3 [0x35]) = .next (loopState 1 3 [0x35]) := by
  refine ⟨⟨by decide, by decide, by decide⟩, by decide, by decide, by decide, by decide, rfl⟩

theorem witness_PlacedWordIsTheNextInstruction :
    decode (tableBytes 16 0xF0BF) = .ok (.luma 63 15 0) 2 ∧ State.reset.enc.phase ≠ .active ∧ State.reset.host = [] := by
  decide

theorem repeatState_encMove : ∃ h, encMove P0 repeatState = .next h := ⟨_, rfl⟩

theorem witness_PendingStepRepeatsTheLastOpcode :
    BlockInv repeatState ∧ inDecLoop repeatState.dec ∧ 0 < repeatState.dec.pending ∧
      ∃ h, encMove P0 repeatState = .next h :=
  ⟨repeatState_inv, ⟨by decide, by decide, by decide⟩, by decide, repeatState_encMove⟩

/-- No byte left, and an opcode that ends one byte too early. -/
theorem witness_TruncatedInputRaisesUnderrun :
    (inDecLoop (loopState 1 3 []).dec ∧ (loopState 1 3 []).dec.pending = 0 ∧
      (loopState 1 3 []).dec.inp.length ≤ (loopState 1 3 []).dec.rd ∧
      ∃ h, encMove P0 (loopState 1 3 []) = .next h) ∧
    (inDecLoop (loopState 1 3 [0xFE, 1, 2]).dec ∧
      (loopState 1 3 [0xFE, 1, 2]).dec.inp[(loopState 1 3 [0xFE, 1, 2]).dec.rd]? = some 0xFE ∧
      (loopState 1 3 [0xFE, 1, 2]).dec.inp.length < (loopState 1 3 [0xFE, 1, 2]).dec.rd + (classify 0xFE).length) := by
  refine ⟨⟨⟨by decide, by decide, by decide⟩, by decide, by decide, ⟨_, rfl⟩⟩, ⟨by decide, by decide, by decide⟩,
    by decide, by decide⟩

/-- In the loop; at its end with a repetition pending, and with none pending and every byte of OUT written. -/
theorem witness_FullOutputEndsTheCall :
    (BlockInv repeatState ∧ repeatState.dec.phase = .active ∧ repeatState.dec.rd ≠ 0) ∧
    ((fullDec 1).phase = .active ∧ (fullDec 1).rd ≠ 0 ∧ (fullDec 1).hdr.outLen ≤ (fullDec 1).wr ∧
      0 < (fullDec 1).pending) ∧
    (fullDec 0).hdr.outLen ≤ (fullDec 0).wr ∧ (fullDec 0).pending = 0 ∧
      ([1, 1, 1, 2, 2, 2] : List Byte).length = (fullDec 0).hdr.outLen ∧
      (∀ j, j < (fullDec 0).hdr.outLen → (fullDec 0).out.read j = ([1, 1, 1, 2, 2, 2] : List Byte)[j]?) ∧
      ∃ h, encMove P0 { State.reset with dec := fullDec 0 } = .next h := by
  refine ⟨⟨repeatState_inv, by decide, by decide⟩, ⟨by decide, by decide, by decide, by decide⟩, by decide, by decide,
    by decide, by decide, ⟨_, rfl⟩⟩

/-- An empty input; 1 and 13 bytes; and 14 bytes that pass every check. -/
theorem witness_DecodeValidatesInOrder :
    ((Dec.accept []).phase = .active ∧ (Dec.accept []).rd = 0 ∧ (Dec.accept []).inp = []) ∧
    (0 < (Dec.accept [0]).inp.length ∧ (Dec.accept [0]).inp.length < 14) ∧
    (0 < (Dec.accept (List.replicate 13 0)).inp.length ∧ (Dec.accept (List.replicate 13 0)).inp.length < 14) ∧
    (Dec.accept (headBytes ⟨0x01020304, 1, 3, 0⟩)).inp =
      0xDE :: 0xAD :: 0xBE :: 0xEF :: 1 :: 2 :: 3 :: 4 :: 0 :: 0 :: 0 :: 1 :: 3 :: 0 :: [] ∧
    (0x01020304 : U32).toNat =
      (1 : Byte).toNat * 2 ^ 24 + (2 : Byte).toNat * 2 ^ 16 + (3 : Byte).toNat * 2 ^ 8 + (4 : Byte).toNat ∧
    (1 : U32).toNat =
      (0 : Byte).toNat * 2 ^ 24 + (0 : Byte).toNat * 2 ^ 16 + (0 : Byte).toNat * 2 ^ 8 + (1 : Byte).toNat := by
  decide

theorem witness_EncodeValidatesInOrder :
    callState.enc.phase = .active ∧ callState.enc.out = [] ∧ callState.enc.hdr = ⟨1, 1, 3, 0⟩ := by decide

/-- A hit; an alpha change; and with alpha unchanged the ends of the DIFF and LUMA ranges and the values beyond. -/
theorem witness_SelectorTestsInPriorityOrder :
    Cache.fresh.read (pixelHash ⟨0, 0, 0, 255⟩) = ⟨0, 0, 0, 255⟩ ∧
    Cache.fresh.read (pixelHash ⟨0, 0, 0, 0⟩) ≠ ⟨0, 0, 0, 0⟩ ∧
    Cache.fresh.read (pixelHash ⟨254, 1, 254, 255⟩) ≠ ⟨254, 1, 254, 255⟩ ∧
    ((254 : Byte) - 0).toInt = -2 ∧ ((1 : Byte) - 0).toInt = 1 ∧
    Cache.fresh.read (pixelHash ⟨2, 0, 0, 255⟩) ≠ ⟨2, 0, 0, 255⟩ ∧ ((2 : Byte) - 0).toInt = 2 ∧
    Cache.fresh.read (pixelHash ⟨38, 31, 23, 255⟩) ≠ ⟨38, 31, 23, 255⟩ ∧
    ((31 : Byte) - 0).toInt = 31 ∧ (((38 : Byte) - 0) - (31 - 0)).toInt = 7 ∧ (((23 : Byte) - 0) - (31 - 0)).toInt = -8 ∧
    Cache.fresh.read (pixelHash ⟨32, 32, 32, 255⟩) ≠ ⟨32, 32, 32, 255⟩ ∧ ((32 : Byte) - 0).toInt = 32 := by decide

theorem witness_SelectorNeverChoosesAZeroDelta :
    Cache.fresh.read (pixelHash Pixel.opaqueBlack) = Pixel.opaqueBlack ∧
    (select Cache.fresh Pixel.opaqueBlack ⟨100, 50, 25, 255⟩).1 = .rgb 100 50 25 ∧
    (select Cache.fresh Pixel.opaqueBlack ⟨1, 2, 3, 4⟩).1 = .rgba 1 2 3 4 := by decide

/-- The premise on alpha is met by an RGB of alpha 255, and by any opcode other than RGB. -/
theorem witness_SelectedOpcodeRebuildsThePixel :
    pixelFits (loopState 1 4 []).dec ∧
    (isRgb (select (loopState 1 4 []).dec.cache (loopState 1 4 []).dec.prev ⟨100, 50, 25, 255⟩).1 = true →
      (⟨100, 50, 25, 255⟩ : Pixel).a = 255) ∧
    (isRgb (select (loopState 1 4 []).dec.cache (loopState 1 4 []).dec.prev ⟨1, 2, 3, 4⟩).1 = true →
      (⟨1, 2, 3, 4⟩ : Pixel).a = 255) := by
  refine ⟨witness_pixelFits.2, fun _ => rfl, ?_⟩
  decide

/-- A repeat that reaches 62, one at the last pixel, one that is neither; and a pixel that is no repeat. -/
theorem witness_EncoderStepFoldsRepeats :
    (inEncLoop (loopEnc 99 70 61) ∧ (loopEnc 99 70 61).run + 1 = 62 ∧
      pixelIn (loopEnc 99 70 61).hdr.channels (loopEnc 99 70 61).buf (loopEnc 99 70 61).i = some ⟨1, 1, 1, 255⟩ ∧
      (loopEnc 99 70 61).prevOp =
        some (select (loopEnc 99 70 61).cache (loopEnc 99 70 61).prev ⟨1, 1, 1, 255⟩).1) ∧
    (inEncLoop (loopEnc 2 1 0) ∧ (loopEnc 2 1 0).i + 1 = (loopEnc 2 1 0).hdr.pixels) ∧
    (inEncLoop (loopEnc 3 1 0) ∧
      ¬ ((loopEnc 3 1 0).run + 1 = 62 ∨ (loopEnc 3 1 0).i + 1 = (loopEnc 3 1 0).hdr.pixels)) ∧
    (loopEnc 3 1 0).prevOp ≠ some (select (loopEnc 3 1 0).cache (loopEnc 3 1 0).prev ⟨9, 9, 9, 255⟩).1 := by
  refine ⟨⟨⟨by decide, by decide, by decide⟩, by decide, by decide, by decide⟩,
    ⟨⟨by decide, by decide, by decide⟩, by decide⟩, ⟨⟨by decide, by decide, by decide⟩, by decide⟩, by decide⟩

theorem witness_RepeatGroupsFoldBySixtyTwo :
    (loopEnc 3 1 0).prevOp = some (.diff 3 3 3) ∧ (loopEnc 3 1 0).run = 0 ∧ 0 < 62 ∧
      (Instr.index 0) ≠ .diff 3 3 3 := by decide

theorem witness_EndMarkerEndsTheStream :
    (loopEnc 3 3 0).phase = .active ∧ (loopEnc 3 3 0).out ≠ [] ∧ (loopEnc 3 3 0).hdr.pixels ≤ (loopEnc 3 3 0).i := by
  decide

/-- The state in which the host is about to act. -/
def askState (a : HostAction) : State := { State.reset with host := [a] }

theorem witness_EveryCallResetsItsEngine :
    (∃ t, (askState (.encode ⟨1, 1, 3, 0⟩ [0, 0, 0])).enc.phase = .idle ∧
      stepWith P0 (askState (.encode ⟨1, 1, 3, 0⟩ [0, 0, 0])) = .next t) ∧
    ∃ t, (askState (.decode [0])).dec.phase = .idle ∧ stepWith P0 (askState (.decode [0])) = .next t :=
  ⟨⟨_, rfl, rfl⟩, ⟨_, rfl, rfl⟩⟩

/-- Both engines have ended, one in each way. -/
def endedState (host : List HostAction) : State :=
  { State.reset with
    enc := (loopEnc 3 3 0).finish
    dec := (loopDec 1 3 []).raise (.parse .underrun 14)
    host := host }

theorem witness_ResultStaysUntilTaken :
    ((endedState []).enc.phase = .done ∧ (endedState []).dec.phase = .error ∧
      (endedState []).host.head? ≠ some .takeEnc ∧ (endedState []).host.head? ≠ some .takeDec ∧
      ∃ t, stepWith P0 (endedState []) = .next t) ∧
    ((endedState [.takeDec]).host.head? = some .takeDec ∧
      (endedState [.takeDec]).dec.result = some (.error (.parse .underrun 14)) ∧
      ∃ t, stepWith P0 (endedState [.takeDec]) = .next t) ∧
    ((endedState [.takeEnc]).host.head? = some .takeEnc ∧
      (endedState [.takeEnc]).enc.result = some (.ok (headBytes ⟨3, 1, 3, 0⟩)) ∧
      ∃ t, stepWith P0 (endedState [.takeEnc]) = .next t) := by
  refine ⟨⟨by decide, by decide, by decide, by decide, ⟨_, rfl⟩⟩, ⟨by decide, by decide, ⟨_, rfl⟩⟩,
    by decide, by decide, ⟨_, rfl⟩⟩

theorem witness_OnlyEndedCallsDeliver : ∃ t, stepWith P0 (endedState [.takeDec]) = .next t := ⟨_, rfl⟩

/-- Two states that differ in the encoder and the host; and two that differ in the decoder. -/
theorem witness_EnginesShareNothing :
    ((loopState 1 3 [0x35]).dec = { loopState 1 3 [0x35] with host := [.wait], enc := Enc.accept ⟨0, 0, 0, 0⟩ [] }.dec ∧
      (loopState 1 3 [0x35]).dec.phase = .active ∧ (∃ t, stepWith P0 (loopState 1 3 [0x35]) = .next t) ∧
      ∃ t, stepWith P0 { loopState 1 3 [0x35] with host := [.wait], enc := Enc.accept ⟨0, 0, 0, 0⟩ [] } = .next t) ∧
    ((encLoopState 2 1 0).enc = { encLoopState 2 1 0 with dec := Dec.accept [] }.enc ∧
      (encLoopState 2 1 0).enc.phase = .active ∧ (∃ t, stepWith P0 (encLoopState 2 1 0) = .next t) ∧
      ∃ t, stepWith P0 { encLoopState 2 1 0 with dec := Dec.accept [] } = .next t) :=
  ⟨⟨rfl, rfl, ⟨_, rfl⟩, ⟨_, rfl⟩⟩, ⟨rfl, rfl, ⟨_, rfl⟩, ⟨_, rfl⟩⟩⟩

theorem witness_ErrorsArePreciseAndDeliverNoOutput :
    (∃ t, stepWith P0 (loopState 1 3 []) = .next t ∧ (loopState 1 3 []).dec.phase = .active ∧
      t.dec.phase = .error) ∧
    ∃ t, stepWith P0 { State.reset with enc := Enc.accept ⟨1, 1, 3, 0⟩ [] } = .next t ∧
      (Enc.accept ⟨1, 1, 3, 0⟩ []).phase = .active ∧ t.enc.phase = .error :=
  ⟨⟨_, rfl, rfl, rfl⟩, ⟨_, rfl, rfl, rfl⟩⟩

theorem witness_EncodeCannotFailAfterValidation :
    ∃ t, stepWith P0 (encLoopState 2 1 0) = .next t ∧ (encLoopState 2 1 0).enc.phase = .active ∧
      (encLoopState 2 1 0).enc.out ≠ [] := ⟨_, rfl, rfl, by decide⟩

theorem witness_IdleBlockStandsStill :
    State.reset.enc.phase ≠ .active ∧ State.reset.dec.phase ≠ .active ∧ State.reset.host = [] := by decide

theorem witness_StepKeepsTheInvariant : BlockInv repeatState ∧ ∃ t, stepWith P0 repeatState = .next t :=
  ⟨repeatState_inv, ⟨_, rfl⟩⟩

theorem witness_InvariantStatesNeverStop : BlockInv repeatState := repeatState_inv

theorem witness_EverySlotHoldsDefaultOrItsOwnHash :
    CacheInv repeatState.enc.cache ∧ CacheInv repeatState.dec.cache ∧ ∃ t, stepWith P0 repeatState = .next t :=
  ⟨cacheInv_fresh, cacheInv_store cacheInv_fresh _, ⟨_, rfl⟩⟩

theorem witness_OutputMemoryStaysCanonical :
    repeatState.dec.out.wf ∧ ∃ t, stepWith P0 repeatState = .next t := ⟨by decide, ⟨_, rfl⟩⟩

theorem witness_DecodeEndsWithinItsBound :
    BlockInv callState ∧ callState.dec = Dec.accept (headBytes ⟨1, 1, 3, 0⟩ ++ [0x35] ++ endMarker) :=
  ⟨callState_inv, rfl⟩

/-- For the four statements about a valid ENCODE call. -/
theorem witness_validEncodeCall :
    BlockInv callState ∧ callState.enc = Enc.accept ⟨1, 1, 3, 0⟩ [0, 0, 0] ∧
      encodeError P0 ⟨1, 1, 3, 0⟩ [0, 0, 0] = none :=
  ⟨callState_inv, rfl, by decide⟩

/-- P5's first pixel alone: the stream of one black pixel is the header, 0x35 and the end marker. -/
theorem callState_stream : ∃ t, runWith P0 3 callState = .next t ∧
    t.enc.result = some (.ok (headBytes ⟨1, 1, 3, 0⟩ ++ [0x35] ++ endMarker)) := ⟨_, rfl, by decide⟩

theorem callState_alphaSafe : alphaSafe P0 callState := by
  intro k u px hk hr _ hp _
  have hch : u.enc.hdr.channels = 3 := by
    have hk3 : k < 3 := hk
    interval_cases k <;> (cases hr; rfl)
  unfold pixelIn at hp
  rw [hch] at hp
  simp only at hp
  split at hp
  · simp only [show ¬ (3 : Byte) = 4 by decide, if_false, Option.some.injEq] at hp
    subst hp
    rfl
  · cases hp

theorem witness_DecodeInvertsEncode :
    BlockInv callState ∧ callState.enc = Enc.accept ⟨1, 1, 3, 0⟩ [0, 0, 0] ∧
      encodeError P0 ⟨1, 1, 3, 0⟩ [0, 0, 0] = none ∧ alphaSafe P0 callState ∧
      callState.dec = Dec.accept (headBytes ⟨1, 1, 3, 0⟩ ++ [0x35] ++ endMarker) :=
  ⟨callState_inv, rfl, by decide, callState_alphaSafe, rfl⟩

/-- Three channels; and four with every alpha 255. -/
theorem witness_OpaqueImagesRoundTrip :
    (BlockInv callState ∧ encodeError P0 ⟨1, 1, 3, 0⟩ [0, 0, 0] = none ∧ (⟨1, 1, 3, 0⟩ : Header).channels = 3) ∧
    BlockInv { callState with enc := Enc.accept ⟨1, 1, 4, 0⟩ [1, 2, 3, 255] } ∧
      encodeError P0 ⟨1, 1, 4, 0⟩ [1, 2, 3, 255] = none ∧
      ∀ i px, pixelIn 4 [1, 2, 3, 255] i = some px → px.a = 255 := by
  refine ⟨⟨callState_inv, by decide, rfl⟩, ⟨encInv_accept _ _, decInv_accept _⟩, by decide, fun i px h => ?_⟩
  rcases i with _ | i
  · cases h; rfl
  · have hn : ([1, 2, 3, 255] : List Byte)[(i + 1) * 4]? = none := by simp
    have h4 : (4 : Byte).toNat = 4 := rfl
    simp only [pixelIn, h4, hn] at h
    cases h

theorem witness_BytesAfterTheLastOpcodeAreIgnored :
    ∃ t, BlockInv callState ∧ callState.host = [] ∧ runWith P0 3 callState = .next t ∧ t.dec.phase = .done ∧
      (headBytes ⟨1, 1, 3, 0⟩ ++ [0x35, 0xFF, 0xFF]).take t.dec.rd =
        (headBytes ⟨1, 1, 3, 0⟩ ++ [0x35] ++ endMarker).take t.dec.rd :=
  ⟨_, callState_inv, rfl, rfl, by decide, by decide⟩

/-- ENC-ALPHA-HAZARD under one magic: the opcode bytes, and the last byte that comes back as 255. -/
theorem test_alpha_hazard : ∃ t, runWith P0 4
    { State.reset with enc := Enc.accept ⟨2, 1, 4, 0⟩ [0, 0, 0, 128, 100, 0, 0, 128] } = .next t ∧
    t.enc.result = some (.ok (headBytes ⟨2, 1, 4, 0⟩ ++
      [0xFF, 0, 0, 0, 0x80, 0xFE, 0x64, 0, 0] ++ endMarker)) := ⟨_, rfl, by decide⟩

end Sys2Proof.Tests
end

section
/-! Proofs of the family `10_state.md`, and the facts about a step that they rest on. First the host's move, then what
one move of the decoder can answer, then that this move depends on the decoder alone; the obligations stand last. -/

namespace Sys2Proof.Machine

variable {P : Params} {s t : State}

/-! ### Engines that have ended, and the host's move -/

theorem Phase.ne_idle_and_ne_active_of_ended {p : Phase} (hp : p = .done ∨ p = .error) :
    p ≠ .idle ∧ p ≠ .active := by
  rcases hp with rfl | rfl <;> decide

/-- A host that asks nothing does nothing. -/
theorem hostMove_of_host_nil (hh : s.host = []) : hostMove s = s := by
  simp only [hostMove, hh]

/-- The host's only way to change a decoder that is not IDLE is to take its result (R32). -/
theorem hostMove_dec_of_not_taken (hp : s.dec.phase ≠ .idle) (hh : s.host.head? ≠ some .takeDec) :
    (hostMove s).dec = s.dec := by
  unfold hostMove
  split
  case h_1 => rfl
  case h_2 => split <;> rfl
  case h_3 => simp [hp]
  case h_4 =>
    split
    · split <;> rfl
    · rfl
  case h_5 hhost => simp [hhost] at hh
  case h_6 => rfl

/-- The host's only way to change an encoder that is not IDLE is to take its result (R32). -/
theorem hostMove_enc_of_not_taken (hp : s.enc.phase ≠ .idle) (hh : s.host.head? ≠ some .takeEnc) :
    (hostMove s).enc = s.enc := by
  unfold hostMove
  split
  case h_1 => rfl
  case h_2 => simp [hp]
  case h_3 => split <;> rfl
  case h_4 hhost => simp [hhost] at hh
  case h_5 =>
    split
    · split <;> rfl
    · rfl
  case h_6 => rfl

/-- The taking of the decoder's result. -/
theorem hostMove_takeDec {r : DecResult} (hp : s.dec.phase = .done ∨ s.dec.phase = .error)
    (hh : s.host.head? = some .takeDec) (hr : s.dec.result = some r) :
    (hostMove s).dec = s.dec.release ∧ (hostMove s).delivered = s.delivered ++ [.dec r] := by
  obtain ⟨rest, hhost⟩ := List.head?_eq_some_iff.1 hh
  simp [hostMove, hhost, hp, hr]

/-- The taking of the encoder's result. -/
theorem hostMove_takeEnc {r : EncResult} (hp : s.enc.phase = .done ∨ s.enc.phase = .error)
    (hh : s.host.head? = some .takeEnc) (hr : s.enc.result = some r) :
    (hostMove s).enc = s.enc.release ∧ (hostMove s).delivered = s.delivered ++ [.enc r] := by
  obtain ⟨rest, hhost⟩ := List.head?_eq_some_iff.1 hh
  simp [hostMove, hhost, hp, hr]

/-- A step delivers what the host's move in it delivers. -/
theorem stepWith_delivered (h : stepWith P s = .next t) : t.delivered = (hostMove s).delivered := by
  obtain ⟨-, -, -, -, hdel, -⟩ := stepWith_eq_next h
  exact hdel

/-- Where no engine is ACTIVE a step is the host's move. -/
theorem stepWith_of_none_active (he : s.enc.phase ≠ .active) (hd : s.dec.phase ≠ .active) :
    stepWith P s = .next (hostMove s) := by
  simp [stepWith, encMove, decMove, he, hd]

/-! ### What one move of an ACTIVE decoder can answer -/

/-- Everything an iteration of the decoder's loop can do when it goes on (R273): repeat the last opcode (R274), raise
an underrun (R281), or execute the opcode at the read cursor, past it unless it is NONE (R275). -/
theorem decStep_eq_next (h : decStep s = .next t) :
    (∃ op, 0 < s.dec.pending ∧ s.dec.lastOp = some op ∧ op.producesPixel = true ∧
      exec op (s.withDec (s.dec.withPending (s.dec.pending - 1))) = .next t) ∨
    (s.dec.pending = 0 ∧ decode (s.dec.inp.drop s.dec.rd) = .underrun ∧
      t = s.withDec (s.dec.raise (.parse .underrun s.dec.rd))) ∨
    (∃ i n, s.dec.pending = 0 ∧ decode (s.dec.inp.drop s.dec.rd) = .ok i n ∧
      exec i (s.withDec (s.dec.withRd (if i = .none then s.dec.rd else s.dec.rd + n))) = .next t) := by
  unfold decStep at h
  split at h
  case isTrue hpend =>
    unfold decRepeat at h
    split at h
    case h_1 op hop =>
      split at h
      case isTrue hprod => exact .inl ⟨op, hpend, hop, hprod, h⟩
      case isFalse => cases h
    case h_2 => cases h
  case isFalse hpend =>
    have hpend : s.dec.pending = 0 := by omega
    unfold decParse at h
    split at h
    case h_1 hdec => cases h; exact .inr (.inl ⟨hpend, hdec, rfl⟩)
    case h_2 i n hdec =>
      refine .inr (.inr ⟨i, n, hpend, hdec, ?_⟩)
      split at h
      case isTrue hi => rw [if_pos hi]; exact h
      case isFalse hi => rw [if_neg hi]; exact h

/-- Everything the end of a DECODE call can do when it goes on (R280): raise an overrun, or finish. -/
theorem decEnd_eq_next {d d' : Dec} (h : decEnd d = .next d') :
    (0 < d.pending ∧ d' = d.raise (.parse .overrun d.rd)) ∨
    (∃ raw, d.pending = 0 ∧ d.out.readBytes 0 d.hdr.outLen = some raw ∧ d' = d.finish raw) := by
  unfold decEnd at h
  split at h
  case isTrue hpend => cases h; exact .inl ⟨hpend, rfl⟩
  case isFalse hpend =>
    split at h
    case h_1 raw hraw => cases h; exact .inr ⟨raw, by omega, hraw, rfl⟩
    case h_2 => cases h

/-- Everything one move of an ACTIVE decoder can do when it goes on (R270): validation, an iteration of the loop, or
the end of the call. -/
theorem decTick_eq_next (h : decTick P s = .next t) :
    (s.dec.rd = 0 ∧ t = s.withDec (decBegin P s.dec)) ∨
    (s.dec.rd ≠ 0 ∧ s.dec.wr < s.dec.hdr.outLen ∧ decStep s = .next t) ∨
    (∃ d, s.dec.rd ≠ 0 ∧ s.dec.hdr.outLen ≤ s.dec.wr ∧ decEnd s.dec = .next d ∧ t = s.withDec d) := by
  unfold decTick at h
  split at h
  case isTrue hrd => cases h; exact .inl ⟨hrd, rfl⟩
  case isFalse hrd =>
    split at h
    case isTrue hwr => exact .inr (.inl ⟨hrd, hwr, h⟩)
    case isFalse hwr =>
      obtain ⟨d, hend, ht⟩ := andThen_eq_next h
      cases ht
      exact .inr (.inr ⟨d, hrd, Nat.le_of_not_lt hwr, hend, rfl⟩)

/-! ### The decoder's move depends on the decoder alone

Each lemma: in a block `u` whose decoder is that of `s`, the operation answers as in `s`, on the rest of `u`. -/

variable (u : State)

theorem produce_withDec (op : Instr) (px : Pixel) (s : State) :
    produce op px (u.withDec s.dec) = andThen (produce op px s) fun t => .next (u.withDec t.dec) := by
  simp only [produce, withDec_dec]
  split <;> rfl

theorem exec_withDec (i : Instr) (s : State) :
    exec i (u.withDec s.dec) = andThen (exec i s) fun t => .next (u.withDec t.dec) := by
  cases i with
  | index _ => exact produce_withDec u _ _ s
  | diff _ _ _ => exact produce_withDec u _ _ s
  | luma _ _ _ => exact produce_withDec u _ _ s
  | run _ =>
    simp only [exec, execRun, withDec_dec]
    split <;> rfl
  | rgb _ _ _ => exact produce_withDec u _ _ s
  | rgba _ _ _ _ => exact produce_withDec u _ _ s
  | none => rfl

/-- `exec_withDec` where the decoder has been changed first, in both blocks. -/
theorem exec_withDec_of_withDec (i : Instr) (s : State) (d : Dec) :
    exec i (u.withDec d) = andThen (exec i (s.withDec d)) fun t => .next (u.withDec t.dec) := by
  simpa using exec_withDec u i (s.withDec d)

theorem decRepeat_withDec (s : State) :
    decRepeat (u.withDec s.dec) = andThen (decRepeat s) fun t => .next (u.withDec t.dec) := by
  simp only [decRepeat, withDec_dec, withDec_withDec]
  cases s.dec.lastOp with
  | none => rfl
  | some op =>
    by_cases hprod : op.producesPixel = true
    · simp only [if_pos hprod]
      exact exec_withDec_of_withDec u op s _
    · simp only [if_neg hprod]
      rfl

theorem decParse_withDec (s : State) :
    decParse (u.withDec s.dec) = andThen (decParse s) fun t => .next (u.withDec t.dec) := by
  simp only [decParse, withDec_dec, withDec_withDec]
  cases decode (s.dec.inp.drop s.dec.rd) with
  | underrun => rfl
  | ok i n =>
    by_cases hi : i = .none
    · simp only [if_pos hi]
      exact exec_withDec u i s
    · simp only [if_neg hi]
      exact exec_withDec_of_withDec u i s _

theorem decStep_withDec (s : State) :
    decStep (u.withDec s.dec) = andThen (decStep s) fun t => .next (u.withDec t.dec) := by
  by_cases hpend : s.dec.pending > 0
  · simp only [decStep, withDec_dec, hpend, if_true]
    exact decRepeat_withDec u s
  · simp only [decStep, withDec_dec, hpend, if_false]
    exact decParse_withDec u s

theorem decTick_withDec (P : Params) (s : State) :
    decTick P (u.withDec s.dec) = andThen (decTick P s) fun t => .next (u.withDec t.dec) := by
  by_cases hrd : s.dec.rd = 0
  · simp only [decTick, withDec_dec, withDec_withDec, hrd, if_true, andThen_next]
  · by_cases hwr : s.dec.wr < s.dec.hdr.outLen
    · simp only [decTick, withDec_dec, hrd, hwr, if_false, if_true]
      exact decStep_withDec u s
    · simp only [decTick, withDec_dec, withDec_withDec, hrd, hwr, if_false]
      cases decEnd s.dec <;> rfl

variable {u}

/-- A decoder that was ACTIVE has made one move of its own: the one it would make if the host and the encoder stood
still (R30). -/
theorem stepWith_dec_of_active (h : stepWith P s = .next t) (hp : s.dec.phase = .active) :
    decTick P s = .next (s.withDec t.dec) := by
  obtain ⟨u, -, -, -, -, hdec, htick⟩ := stepWith_eq_next h
  rw [if_pos hp] at htick
  have hu : u.dec = s.dec := hdec.trans (hostMove_dec_of_active hp)
  calc decTick P s = decTick P (s.withDec u.dec) := by rw [hu, withDec_self]
    _ = .next (s.withDec t.dec) := by rw [decTick_withDec, htick, andThen_next]

/-! ### OUT keeps its canonical form (log entry 14) -/

theorem pixelOut_keeps_wf {hdr : Header} {out m : Memory} {w : Nat} {px : Pixel} (hwf : out.wf)
    (h : pixelOut hdr out w px = some m) : m.wf := by
  unfold pixelOut at h
  split at h
  · cases h; exact Memory.wf_writeBytes hwf _ _
  · cases h

theorem exec_keeps_outWf {i : Instr} (hwf : s.dec.out.wf) (h : exec i s = .next t) : t.dec.out.wf := by
  rcases exec_eq_next h with ⟨-, m, hm, rfl⟩ | ⟨n, op, -, -, rfl⟩ | ⟨r, e, -, rfl⟩
  · exact pixelOut_keeps_wf hwf hm
  · exact hwf
  · exact List.Pairwise.nil

theorem decBegin_keeps_outWf {d : Dec} (hwf : d.out.wf) : (decBegin P d).out.wf := by
  unfold decBegin
  split
  · exact List.Pairwise.nil
  · exact hwf

theorem decStep_keeps_outWf (hwf : s.dec.out.wf) (h : decStep s = .next t) : t.dec.out.wf := by
  rcases decStep_eq_next h with ⟨op, -, -, -, hexec⟩ | ⟨-, -, rfl⟩ | ⟨i, n, -, -, hexec⟩
  · exact exec_keeps_outWf (by simpa using hwf) hexec
  · exact List.Pairwise.nil
  · exact exec_keeps_outWf (by simpa using hwf) hexec

theorem decEnd_keeps_outWf {d d' : Dec} (hwf : d.out.wf) (h : decEnd d = .next d') : d'.out.wf := by
  rcases decEnd_eq_next h with ⟨-, rfl⟩ | ⟨raw, -, -, rfl⟩
  · exact List.Pairwise.nil
  · exact hwf

theorem decTick_keeps_outWf (hwf : s.dec.out.wf) (h : decTick P s = .next t) : t.dec.out.wf := by
  rcases decTick_eq_next h with ⟨-, rfl⟩ | ⟨-, -, hstep⟩ | ⟨d, -, -, hend, rfl⟩
  · exact decBegin_keeps_outWf hwf
  · exact decStep_keeps_outWf hwf hstep
  · exact decEnd_keeps_outWf hwf hend

theorem hostMove_keeps_outWf (hwf : s.dec.out.wf) : (hostMove s).dec.out.wf := by
  rcases hostMove_dec_cases s with hd | ⟨bytes, -, hd⟩ | ⟨-, hd⟩ <;> rw [hd]
  · exact hwf
  · exact List.Pairwise.nil
  · exact hwf

/-! ### The obligations -/

/-- Settles O33: an engine that has ended makes no move of its own, and the host changes it only by taking its result. -/
theorem resultStaysUntilTaken : Obligations.ResultStaysUntilTaken := by
  intro P s t h
  refine ⟨fun hend => ?_, fun hend => ?_⟩
  · obtain ⟨hidle, hactive⟩ := Phase.ne_idle_and_ne_active_of_ended hend
    rw [stepWith_dec_of_not_active h hactive, stepWith_delivered h]
    refine ⟨hostMove_dec_of_not_taken hidle, fun r hh hr => ?_⟩
    obtain ⟨hd, hdel⟩ := hostMove_takeDec hend hh hr
    rw [hd]
    exact ⟨rfl, rfl, hdel⟩
  · obtain ⟨hidle, hactive⟩ := Phase.ne_idle_and_ne_active_of_ended hend
    rw [stepWith_enc_of_not_active h hactive, stepWith_delivered h]
    refine ⟨hostMove_enc_of_not_taken hidle, fun r hh hr => ?_⟩
    obtain ⟨he, hdel⟩ := hostMove_takeEnc hend hh hr
    rw [he]
    exact ⟨rfl, rfl, hdel⟩

/-- Settles O35: the step of an ACTIVE engine is its own move, which is a function of that engine. -/
theorem enginesShareNothing : Obligations.EnginesShareNothing := by
  intro P s s' t t' h h'
  refine ⟨fun hdec hp => ?_, fun henc hp => ?_⟩
  · have hs : decTick P s = .next (s.withDec t.dec) := stepWith_dec_of_active h hp
    have hs' : decTick P s' = .next (s'.withDec t'.dec) := stepWith_dec_of_active h' (hdec ▸ hp)
    have hsame : decTick P s' = .next (s'.withDec t.dec) := by
      rw [← withDec_self s', ← hdec, decTick_withDec, hs]
      rfl
    injection hsame.symm.trans hs' with hst
    injection hst
  · have hs : encTick P s.enc = .next t.enc := stepWith_enc_of_active h hp
    have hs' : encTick P s'.enc = .next t'.enc := stepWith_enc_of_active h' (henc ▸ hp)
    rw [← henc, hs] at hs'
    injection hs'

/-- Settles O45: an ACTIVE decoder makes a move of its own, any other has what the host does to it, and both keep OUT
canonical. -/
theorem outputMemoryStaysCanonical : Obligations.OutputMemoryStaysCanonical := by
  intro P s t hwf h
  by_cases hp : s.dec.phase = .active
  · simpa using decTick_keeps_outWf hwf (stepWith_dec_of_active h hp)
  · rw [stepWith_dec_of_not_active h hp]
    exact hostMove_keeps_outWf hwf

/-- Settles O39: the registers of `Enc.reset` and `Dec.reset`, and a fresh cache in each engine. -/
theorem resetHasTheGivenValues : Obligations.ResetHasTheGivenValues :=
  ⟨rfl, rfl, Cache.read_fresh, rfl, rfl, rfl, rfl, rfl, Cache.read_fresh, rfl, rfl, rfl, rfl, rfl, Memory.read_nil⟩

/-- Settles O40: the step is the host's move, and the host asks nothing. -/
theorem idleBlockStandsStill : Obligations.IdleBlockStandsStill := by
  intro P s he hd hh
  rw [stepWith_of_none_active he hd, hostMove_of_host_nil hh]

end Sys2Proof.Machine
end

section
/-! Proofs of the family `20_memory.md`: what reaches the host, and what never reaches OUT. -/

namespace Sys2Proof.Machine

variable {s : State}

/-- The host's move delivers nothing, or the result of an engine that has ended (R31). -/
theorem hostMove_delivered_cases (s : State) :
    (hostMove s).delivered = s.delivered ∨
      (∃ r, (hostMove s).delivered = s.delivered ++ [.enc r] ∧ s.enc.result = some r ∧
        (s.enc.phase = .done ∨ s.enc.phase = .error)) ∨
      ∃ r, (hostMove s).delivered = s.delivered ++ [.dec r] ∧ s.dec.result = some r ∧
        (s.dec.phase = .done ∨ s.dec.phase = .error) := by
  unfold hostMove
  split
  case h_1 => exact .inl rfl
  case h_2 => split <;> exact .inl rfl
  case h_3 => split <;> exact .inl rfl
  case h_4 =>
    split
    case isTrue hend =>
      split
      case h_1 r hr => exact .inr (.inl ⟨r, rfl, hr, hend⟩)
      case h_2 => exact .inl rfl
    case isFalse => exact .inl rfl
  case h_5 =>
    split
    case isTrue hend =>
      split
      case h_1 r hr => exact .inr (.inr ⟨r, rfl, hr, hend⟩)
      case h_2 => exact .inl rfl
    case isFalse => exact .inl rfl
  case h_6 => exact .inl rfl

/-- Whatever its opcode and its value, a pixel that does not fit OUT is not produced (R60, R70). -/
theorem produce_of_not_fits (hfit : ¬ Safety.pixelFits s.dec) (op : Instr) (px : Pixel) :
    produce op px s = .fault .outputOutOfRange := by
  rw [produce, pixelOut_of_not_fits hfit]

/-- Settles O34: a step delivers what the host's move in it delivers. -/
theorem onlyEndedCallsDeliver : Obligations.OnlyEndedCallsDeliver := by
  intro P s t h
  rw [stepWith_delivered h]
  exact hostMove_delivered_cases s

/-- Settles O17: an opcode that produces a pixel is `produce` of it, which writes inside OUT or stops. -/
theorem pixelOutsideOutStops : Obligations.PixelOutsideOutStops := by
  intro i s hprod hfit
  rw [exec_of_producesPixel hprod, produce_of_not_fits hfit]

end Sys2Proof.Machine
end

section
/-! Proofs of the family `30_encoding.md`. First the class of a byte as R91's table gives it and what a parse that
answers an opcode has read, each said once; the obligations stand last. -/

namespace Sys2Proof

variable {t : Byte} {rest : List Byte} {i : Instr} {n : Nat}

/-! ### The class of a first byte -/

theorem toNat_topBits (t : Byte) : (bits t 6 2).toNat = t.toNat / 64 := by
  have hlt : t.toNat < 256 := t.isLt
  simp only [bits, BitVec.extractLsb'_toNat, Nat.shiftRight_eq_div_pow]
  omega

theorem toNat_lowBits (t : Byte) : (bits t 0 6).toNat = t.toNat % 64 := by
  simp [bits]

/-- R91's table: the two tags first, then one class for each value of the top two bits, with no byte left over. -/
theorem classify_cases (t : Byte) :
    (t.toNat ≤ 0x3F ∧ classify t = .index) ∨
    (0x40 ≤ t.toNat ∧ t.toNat ≤ 0x7F ∧ classify t = .diff) ∨
    (0x80 ≤ t.toNat ∧ t.toNat ≤ 0xBF ∧ classify t = .luma) ∨
    (0xC0 ≤ t.toNat ∧ t.toNat ≤ 0xFD ∧ classify t = .run) ∨
    (t.toNat = 0xFE ∧ classify t = .rgb) ∨
    (t.toNat = 0xFF ∧ classify t = .rgba) := by
  have hlt : t.toNat < 256 := t.isLt
  unfold classify
  simp only [BitVec.toNat_eq, toNat_topBits, BitVec.toNat_ofNat]
  split_ifs with hrgb hrgba hindex hdiff hluma hrun
  · exact .inr (.inr (.inr (.inr (.inl ⟨hrgb, rfl⟩))))
  · exact .inr (.inr (.inr (.inr (.inr ⟨hrgba, rfl⟩))))
  · exact .inl ⟨by omega, rfl⟩
  · exact .inr (.inl ⟨by omega, by omega, rfl⟩)
  · exact .inr (.inr (.inl ⟨by omega, by omega, rfl⟩))
  · exact .inr (.inr (.inr (.inl ⟨by omega, by omega, rfl⟩)))
  · omega

theorem classify_ne_none (t : Byte) : classify t ≠ .none := by
  intro hnone
  have hcases := classify_cases t
  simp [hnone] at hcases

/-- The field of a RUN byte stays below 62: 62 and 63 would spell the two tags (R95). -/
theorem lowBits_le_of_classify_run (hrun : classify t = .run) : (bits t 0 6).toNat ≤ 61 := by
  have hcases := classify_cases t
  simp only [hrun, reduceCtorEq, and_false, and_true, false_or, or_false] at hcases
  rw [toNat_lowBits]
  omega

/-! ### What a parse has read -/

/-- A parse that answers an opcode: the class of the first byte, the bytes it had to find after it, the opcode they
spell and the length consumed (R92 to R97, R172). -/
theorem decode_cons_eq_ok (h : decode (t :: rest) = .ok i n) :
    (classify t = .index ∧ i = .index (bits t 0 6) ∧ n = 1) ∨
    (classify t = .diff ∧ i = .diff (bits t 4 2) (bits t 2 2) (bits t 0 2) ∧ n = 1) ∨
    (∃ u tail, classify t = .luma ∧ rest = u :: tail ∧
      i = .luma (bits t 0 6) (bits u 4 4) (bits u 0 4) ∧ n = 2) ∨
    (classify t = .run ∧ i = .run (bits t 0 6) ∧ n = 1) ∨
    (∃ r g b tail, classify t = .rgb ∧ rest = r :: g :: b :: tail ∧ i = .rgb r g b ∧ n = 4) ∨
    (∃ r g b a tail, classify t = .rgba ∧ rest = r :: g :: b :: a :: tail ∧ i = .rgba r g b a ∧ n = 5) := by
  cases hclass : classify t <;> simp only [decode, hclass] at h
  case index | diff | run =>
    cases h
    simp
  case luma | rgb | rgba =>
    split at h
    · cases h
      simp
    · cases h
  case none => exact absurd hclass (classify_ne_none t)

/-- What a parse consumes is the length that the first byte fixes (R101). -/
theorem eq_length_of_decode_cons (h : decode (t :: rest) = .ok i n) : n = (classify t).length := by
  rcases decode_cons_eq_ok h with ⟨hclass, -, rfl⟩ | ⟨hclass, -, rfl⟩ | ⟨_, _, hclass, -, -, rfl⟩ |
    ⟨hclass, -, rfl⟩ | ⟨_, _, _, _, hclass, -, -, rfl⟩ | ⟨_, _, _, _, _, hclass, -, -, rfl⟩ <;>
    rw [hclass] <;> rfl

theorem wellFormed_of_decode_cons (h : decode (t :: rest) = .ok i n) : i.wellFormed = true := by
  rcases decode_cons_eq_ok h with ⟨-, rfl, -⟩ | ⟨-, rfl, -⟩ | ⟨_, _, -, -, rfl, -⟩ | ⟨hrun, rfl, -⟩ |
    ⟨_, _, _, _, -, -, rfl, -⟩ | ⟨_, _, _, _, _, -, -, rfl, -⟩
  case inr.inr.inr.inl => exact decide_eq_true (lowBits_le_of_classify_run hrun)
  all_goals rfl

/-! ### The obligations -/

/-- Settles O3: the one field that a well-formed opcode bounds is RUN's, and the tags take the bytes above the bound. -/
theorem onlyWellFormedOpcodesAreParsed : Obligations.OnlyWellFormedOpcodesAreParsed := by
  intro bs i n h
  cases bs with
  | nil => cases h
  | cons t rest => exact wellFormed_of_decode_cons h

/-- Settles O1: each range of first bytes is one row of `classify_cases`, and the length is that of the row's class. -/
theorem firstByteFixesClassAndLength : Obligations.FirstByteFixesClassAndLength := by
  intro t
  refine ⟨?_, ?_, ?_, ?_, ?_, ?_, fun rest i n => eq_length_of_decode_cons⟩
  all_goals
    intro hrange
    have hrow := classify_cases t
    grind [OpClass.length]

/-- Settles O5: `decode` evaluated on each word. -/
theorem writtenWordsDecode : Obligations.WrittenWordsDecode := by
  unfold Obligations.WrittenWordsDecode
  decide

end Sys2Proof
end

section
/-! The invariant of the block along a step. For each engine: what each of its moves leaves of the invariant, and that
the move goes on. The block's step is then put together from the host's move and the two engines'. -/

namespace Sys2Proof.Safety

open Sys2Proof.Machine

variable {P : Params} {s t : State}

/-! ### Validation -/

theorem fieldError_eq_none {hdr : Header} (h : fieldError P hdr = none) : hdr.valid := by
  unfold fieldError at h
  split_ifs at h with hw hh hch hcs
  simp only [BitVec.toNat_eq] at hw hh
  exact ⟨Nat.pos_of_ne_zero hw, Nat.pos_of_ne_zero hh, by tauto, by tauto⟩

theorem encodeError_eq_none {hdr : Header} {buf : List Byte} (h : encodeError P hdr buf = none) :
    hdr.valid ∧ buf.length = hdr.outLen := by
  unfold encodeError at h
  split at h
  case isTrue => cases h
  case isFalse =>
    split at h
    case h_1 => cases h
    case h_2 hfield =>
      split at h
      case isTrue => cases h
      case isFalse hlen => exact ⟨fieldError_eq_none hfield, not_not.1 hlen⟩

/-- A header can be read only where its 14 bytes are there (R123). -/
theorem readHeader_eq_some {bytes : List Byte} {m : Magic} {hdr : Header}
    (h : readHeader bytes = some (m, hdr)) : headerLength ≤ bytes.length := by
  unfold readHeader at h
  split at h
  · simp [headerLength]
  · cases h

theorem decodeHeader_eq_ok {bytes : List Byte} {hdr : Header} (h : decodeHeader P bytes = .ok hdr) :
    hdr.valid ∧ headerLength ≤ bytes.length := by
  unfold decodeHeader at h
  split at h
  case isTrue => cases h
  case isFalse =>
    split at h
    case h_1 => cases h
    case h_2 hread =>
      split at h
      case isTrue => cases h
      case isFalse =>
        split at h
        case h_1 => cases h
        case h_2 hfield => cases h; exact ⟨fieldError_eq_none hfield, readHeader_eq_some hread⟩

/-! ### Sizes of a valid header -/

/-- In a valid call a pixel takes `channels` bytes (R62). -/
theorem pixelBytes_length_of_valid {hdr : Header} (hv : hdr.valid) (px : Pixel) :
    (pixelBytes hdr.channels px).length = hdr.channels.toNat := by
  obtain ⟨-, -, hch, -⟩ := hv
  rw [pixelBytes_length]
  rcases hch with hch | hch <;> rw [hch] <;> decide

theorem channels_dvd_outLen (hdr : Header) : hdr.channels.toNat ∣ hdr.outLen := Dvd.intro_left _ rfl

/-! ### The decoder's registers -/

variable {d : Dec}

theorem DecInv.withRd_raise (hd : DecInv d) (r : Nat) (e : CallError) : DecInv ((d.withRd r).raise e) :=
  { hd with
    outWf := List.Pairwise.nil
    noResult := fun h => by simp at h
    doneResult := fun h => nomatch h
    errorResult := fun _ => ⟨e, rfl⟩
    fresh := fun h => nomatch h
    loop := fun h => nomatch h }

theorem DecInv.raise (hd : DecInv d) (e : CallError) : DecInv (d.raise e) := hd.withRd_raise d.rd e

theorem DecInv.finish {raw : List Byte} (hd : DecInv d) (hv : d.hdr.valid) (hraw : raw.length = d.hdr.outLen) :
    DecInv (d.finish raw) :=
  { hd with
    noResult := fun h => by simp at h
    doneResult := fun _ => ⟨d.hdr, raw, rfl, hv, hraw⟩
    errorResult := fun h => nomatch h
    fresh := fun h => nomatch h
    loop := fun h => nomatch h }

theorem DecInv.release (hd : DecInv d) : DecInv d.release :=
  { hd with
    noResult := fun _ => rfl
    doneResult := fun h => nomatch h
    errorResult := fun h => nomatch h
    fresh := fun h => nomatch h
    loop := fun h => nomatch h }

/-- Another pending run counter, for a decoder that has read its header. -/
theorem DecInv.withPending (hd : DecInv d) (hrd : d.rd ≠ 0) {n : Nat} (hn : n ≤ 62)
    (hop : 0 < n → d.lastOp ≠ none) : DecInv (d.withPending n) :=
  { hd with
    pending := hn
    pendingOp := hop
    fresh := fun _ h => absurd h hrd }

/-- The read cursor moved on, within the input, for a decoder that has read its header. -/
theorem DecInv.withRd (hd : DecInv d) (hrd : d.rd ≠ 0) {r : Nat} (hr : d.rd ≤ r) (hlen : r ≤ d.inp.length) :
    DecInv (d.withRd r) :=
  { hd with
    fresh := fun _ h => by simp only [withRd_rd] at h; omega
    loop := fun hp _ => by
      obtain ⟨hv, h14, -, hout⟩ := hd.loop hp hrd
      exact ⟨hv, h14.trans hr, hlen, hout⟩ }

/-- Where the bytes below `w` are written, a run of bytes from `w` on makes it the bytes below its end. -/
theorem isSome_read_writeBytes {m : Memory} {w : Nat} (hm : ∀ a, (m.read a).isSome = true ↔ a < w)
    (vs : List Byte) (a : Nat) : ((m.writeBytes w vs).read a).isSome = true ↔ a < w + vs.length := by
  rw [Memory.read_writeBytes]
  split_ifs with hin
  · exact iff_of_true (by rw [List.getElem?_eq_getElem (by omega)]; rfl) hin.2
  · rw [hm]
    omega

/-- A pixel produced in the loop of a call (R273, R277 to R279). -/
theorem DecInv.produced {op : Instr} {px : Pixel} {m : Memory} (hd : DecInv d) (hp : d.phase = .active)
    (hrd : d.rd ≠ 0) (hop : op.producesPixel = true) (hm : pixelOut d.hdr d.out d.wr px = some m) :
    DecInv (d.produced op px m) :=
  { hd with
    cache := cacheInv_store hd.cache px
    prevHits := Cache.read_store_own _ _
    lastOp := fun op' h => by cases h; exact hop
    pendingOp := fun _ h => nomatch h
    outWf := pixelOut_keeps_wf hd.outWf hm
    fresh := fun _ h => absurd h hrd
    loop := fun _ _ => by
      obtain ⟨hv, h14, hlen, -, hdvd, hwritten⟩ := hd.loop hp hrd
      unfold pixelOut at hm
      split at hm
      case isFalse => cases hm
      case isTrue hfit =>
        cases hm
        rw [pixelBytes_length_of_valid hv] at hfit
        refine ⟨hv, h14, hlen, hfit, (Nat.dvd_add_right hdvd).2 dvd_rfl, fun a => ?_⟩
        simpa [pixelBytes_length_of_valid hv] using isSome_read_writeBytes hwritten (pixelBytes d.hdr.channels px) a }

/-! ### The decoder's moves -/

/-- A parse does not go past the end of the input (R172). -/
theorem le_length_of_decode {bs : List Byte} {i : Instr} {n : Nat} (h : decode bs = .ok i n) : n ≤ bs.length := by
  cases bs with
  | nil => cases h
  | cons t rest =>
    rcases decode_cons_eq_ok h with ⟨-, -, rfl⟩ | ⟨-, -, rfl⟩ | ⟨_, _, -, rfl, -, rfl⟩ | ⟨-, -, rfl⟩ |
      ⟨_, _, _, _, -, rfl, -, rfl⟩ | ⟨_, _, _, _, _, -, rfl, -, rfl⟩ <;> simp

/-- The decoder whose last opcode is about to be applied again (R274). -/
theorem DecInv.beforeRepeat {op : Instr} (hd : DecInv d) (hrd : d.rd ≠ 0) (hop : d.lastOp = some op) :
    DecInv (d.withPending (d.pending - 1)) :=
  hd.withPending hrd ((Nat.sub_le _ _).trans hd.pending) fun _ => by simp [hop]

/-- The decoder that has moved past the opcode it has parsed (R275). -/
theorem DecInv.afterParse {i : Instr} {n : Nat} (hd : DecInv d) (hp : d.phase = .active) (hrd : d.rd ≠ 0)
    (hdec : decode (d.inp.drop d.rd) = .ok i n) : DecInv (d.withRd (d.rd + n)) ∧ (d.withRd (d.rd + n)).rd ≠ 0 := by
  have hn : n ≤ (d.inp.drop d.rd).length := le_length_of_decode hdec
  obtain ⟨-, -, hlen, -⟩ := hd.loop hp hrd
  rw [List.length_drop] at hn
  exact ⟨hd.withRd hrd (Nat.le_add_right _ n) (by omega), by rw [withRd_rd]; omega⟩

/-- Validation and the header read, from the registers of a call just taken (R126). -/
theorem decBegin_keeps_decInv (hd : DecInv d) (hp : d.phase = .active) (hrd : d.rd = 0) :
    DecInv (decBegin P d) := by
  unfold decBegin
  split
  case h_1 e _ => exact hd.raise e
  case h_2 hdr hok =>
    obtain ⟨hv, hlen⟩ := decodeHeader_eq_ok hok
    have hfresh : d = Dec.accept d.inp := hd.fresh hp hrd
    rw [hfresh]
    exact {
      decInv_accept d.inp with
      fresh := fun _ h => nomatch h
      loop := fun _ _ => ⟨hv, le_rfl, hlen, Nat.zero_le _, dvd_zero _, fun a => by simp⟩ }

/-- An opcode that a byte sequence can stand for, executed in the loop of a call. -/
theorem exec_keeps_decInv {i : Instr} (hd : DecInv s.dec) (hp : s.dec.phase = .active) (hrd : s.dec.rd ≠ 0)
    (hwf : i.wellFormed = true) (h : exec i s = .next t) : DecInv t.dec := by
  rcases exec_eq_next h with ⟨hprod, m, hm, rfl⟩ | ⟨n, op, rfl, hop, rfl⟩ | ⟨r, e, -, rfl⟩
  · exact hd.produced hp hrd hprod hm
  · have hn : n.toNat ≤ 61 := of_decide_eq_true hwf
    exact hd.withPending hrd (Nat.succ_le_succ hn) fun _ => by simp [hop]
  · exact hd.withRd_raise r e

theorem wellFormed_of_producesPixel {i : Instr} (h : i.producesPixel = true) : i.wellFormed = true := by
  cases i with
  | run _ => cases h
  | none => cases h
  | _ => rfl

theorem decStep_keeps_decInv (hd : DecInv s.dec) (hp : s.dec.phase = .active) (hrd : s.dec.rd ≠ 0)
    (h : decStep s = .next t) : DecInv t.dec := by
  rcases decStep_eq_next h with ⟨op, hpend, hop, hprod, hexec⟩ | ⟨-, -, rfl⟩ | ⟨i, n, -, hdec, hexec⟩
  · have hd' : DecInv (s.withDec (s.dec.withPending (s.dec.pending - 1))).dec := hd.beforeRepeat hrd hop
    exact exec_keeps_decInv hd' hp hrd (wellFormed_of_producesPixel hprod) hexec
  · exact hd.raise _
  · have hwf : i.wellFormed = true := onlyWellFormedOpcodesAreParsed _ _ _ hdec
    have hnone : i ≠ .none := by rintro rfl; cases hwf
    obtain ⟨hd', hrd'⟩ := hd.afterParse hp hrd hdec
    rw [if_neg hnone] at hexec
    exact exec_keeps_decInv (s := s.withDec _) hd' hp hrd' hwf hexec

theorem decEnd_keeps_decInv {d' : Dec} (hd : DecInv d) (hp : d.phase = .active) (hrd : d.rd ≠ 0)
    (h : decEnd d = .next d') : DecInv d' := by
  rcases decEnd_eq_next h with ⟨-, rfl⟩ | ⟨raw, -, hraw, rfl⟩
  · exact hd.raise _
  · obtain ⟨hv, -⟩ := hd.loop hp hrd
    obtain ⟨hlen, -⟩ := Memory.readBytes_eq_some.1 hraw
    exact hd.finish hv hlen

theorem decTick_keeps_decInv (hd : DecInv s.dec) (hp : s.dec.phase = .active) (h : decTick P s = .next t) :
    DecInv t.dec := by
  rcases decTick_eq_next h with ⟨hrd, rfl⟩ | ⟨hrd, -, hstep⟩ | ⟨d, hrd, -, hend, rfl⟩
  · exact decBegin_keeps_decInv hd hp hrd
  · exact decStep_keeps_decInv hd hp hrd hstep
  · exact decEnd_keeps_decInv hd hp hrd hend

/-- In the loop every opcode has a next state: where OUT is not full a whole pixel fits. -/
theorem exec_goes_on (hd : DecInv s.dec) (hloop : inDecLoop s.dec) (i : Instr) : ∃ t, exec i s = .next t := by
  obtain ⟨hp, hrd, hwr⟩ := hloop
  by_cases hprod : i.producesPixel = true
  · obtain ⟨hv, -, -, -, hdvd, -⟩ := hd.loop hp hrd
    have hend : s.dec.hdr.channels.toNat ∣ s.dec.wr + s.dec.hdr.channels.toNat := (Nat.dvd_add_left dvd_rfl).2 hdvd
    have hfit : s.dec.wr + s.dec.hdr.channels.toNat ≤ s.dec.hdr.outLen :=
      Nat.le_of_lt_add_of_dvd (Nat.add_lt_add_right hwr _) hend (channels_dvd_outLen _)
    rw [← pixelBytes_length_of_valid hv (applied i s.dec)] at hfit
    rw [exec_of_producesPixel hprod, produce, pixelOut, if_pos hfit]
    exact ⟨_, rfl⟩
  · cases i with
    | run n =>
      rw [exec, execRun]
      split <;> exact ⟨_, rfl⟩
    | none => exact ⟨_, rfl⟩
    | _ => exact absurd rfl hprod

theorem decStep_goes_on (hd : DecInv s.dec) (hloop : inDecLoop s.dec) : ∃ t, decStep s = .next t := by
  obtain ⟨hp, hrd, hwr⟩ := hloop
  unfold decStep
  split
  case isTrue hpend =>
    obtain ⟨op, hop⟩ := Option.ne_none_iff_exists'.1 (hd.pendingOp hpend)
    have hprod : op.producesPixel = true := hd.lastOp op hop
    simp only [decRepeat, hop, hprod, if_true]
    exact exec_goes_on (s := s.withDec _) (hd.beforeRepeat hrd hop) ⟨hp, hrd, hwr⟩ op
  case isFalse =>
    unfold decParse
    split
    case h_1 => exact ⟨_, rfl⟩
    case h_2 i n hdec =>
      obtain ⟨hd', hrd'⟩ := hd.afterParse hp hrd hdec
      split
      case isTrue => exact exec_goes_on hd ⟨hp, hrd, hwr⟩ i
      case isFalse => exact exec_goes_on (s := s.withDec _) hd' ⟨hp, hrd', hwr⟩ i

/-- A run of bytes that all hold a value can be read. -/
theorem exists_readBytes {m : Memory} {a n : Nat} (h : ∀ b, a ≤ b → b < a + n → (m.read b).isSome = true) :
    ∃ vs, m.readBytes a n = some vs := by
  induction n generalizing a with
  | zero => exact ⟨[], rfl⟩
  | succ n ih =>
    obtain ⟨v, hv⟩ := Option.isSome_iff_exists.1 (h a le_rfl (by omega))
    obtain ⟨vs, hvs⟩ := ih (a := a + 1) fun b hab hb => h b (by omega) (by omega)
    exact ⟨v :: vs, by simp only [Memory.readBytes, hv, hvs]⟩

/-- At a full OUT every byte of it has been written (R46). -/
theorem decEnd_goes_on (hd : DecInv d) (hp : d.phase = .active) (hrd : d.rd ≠ 0) (hwr : d.hdr.outLen ≤ d.wr) :
    ∃ d', decEnd d = .next d' := by
  obtain ⟨-, -, -, -, -, hwritten⟩ := hd.loop hp hrd
  obtain ⟨raw, hraw⟩ := exists_readBytes (a := 0) (n := d.hdr.outLen) fun b _ hb => (hwritten b).2 (by omega)
  unfold decEnd
  split
  · exact ⟨_, rfl⟩
  · rw [hraw]
    exact ⟨_, rfl⟩

theorem decTick_goes_on (hd : DecInv s.dec) (hp : s.dec.phase = .active) : ∃ t, decTick P s = .next t := by
  unfold decTick
  split
  case isTrue => exact ⟨_, rfl⟩
  case isFalse hrd =>
    split
    case isTrue hwr => exact decStep_goes_on hd ⟨hp, hrd, hwr⟩
    case isFalse hwr =>
      obtain ⟨d', hend⟩ := decEnd_goes_on hd hp hrd (Nat.le_of_not_lt hwr)
      rw [hend]
      exact ⟨_, rfl⟩

end Sys2Proof.Safety
end

section
/-! What an encoder step does (`43_encoder.md` R231): the fold of the run-length detector as the list of the opcodes it
emits, the invariant of the encoder along its moves, and the invariant of the whole block along a step. -/

namespace Sys2Proof.Machine

variable {P : Params} {e e' : Enc}

/-! ### The selector's opcodes -/

theorem selectMissed_producesPixel (prev px : Pixel) : (selectMissed prev px).producesPixel = true := by
  unfold selectMissed
  dsimp only
  split_ifs <;> rfl

/-- The selector chooses an opcode that produces a pixel: never RUN, never NONE (R232). -/
theorem select_producesPixel (c : Cache) (prev px : Pixel) : (select c prev px).1.producesPixel = true := by
  unfold select
  split
  · rfl
  · exact selectMissed_producesPixel prev px

/-- After `Select` the pixel is in the slot of its hash (R233, R234). -/
theorem select_cache_read (c : Cache) (prev px : Pixel) : (select c prev px).2.read (pixelHash px) = px := by
  unfold select
  split
  case isTrue hhit => exact of_decide_eq_true hhit
  case isFalse => exact Cache.read_store_own c px

theorem select_keeps_cacheInv {c : Cache} (hc : Safety.CacheInv c) (prev px : Pixel) :
    Safety.CacheInv (select c prev px).2 := by
  unfold select
  split
  · exact hc
  · exact Safety.cacheInv_store hc px

/-! ### The run-length detector -/

/-- The opcodes that `RunFold` emits (R242, R243). -/
def Enc.folded (e : Enc) (op : Instr) (last : Bool) : List Instr :=
  if e.prevOp = some op then
    if e.run + 1 = 62 ∨ last = true then [.run (runField (e.run + 1))] else []
  else if e.run > 0 then [.run (runField e.run), op] else [op]

/-- The repeats that `RunFold` leaves pending (R242, R243). -/
def Enc.pendingAfter (e : Enc) (op : Instr) (last : Bool) : Nat :=
  if e.prevOp = some op ∧ ¬ (e.run + 1 = 62 ∨ last = true) then e.run + 1 else 0

/-- The four branches of `RunFold`: a repeat flushed or counted (R242), another opcode with or without a pending run
before it (R243). -/
theorem fold_cases (e : Enc) (op : Instr) (last : Bool) :
    (e.prevOp = some op ∧ (e.run + 1 = 62 ∨ last = true) ∧
      e.folded op last = [.run (runField (e.run + 1))] ∧ e.pendingAfter op last = 0) ∨
    (e.prevOp = some op ∧ ¬ (e.run + 1 = 62 ∨ last = true) ∧
      e.folded op last = [] ∧ e.pendingAfter op last = e.run + 1) ∨
    (e.prevOp ≠ some op ∧ 0 < e.run ∧
      e.folded op last = [.run (runField e.run), op] ∧ e.pendingAfter op last = 0) ∨
    (e.prevOp ≠ some op ∧ e.run = 0 ∧ e.folded op last = [op] ∧ e.pendingAfter op last = 0) := by
  unfold Enc.folded Enc.pendingAfter
  by_cases hop : e.prevOp = some op
  · by_cases hflush : e.run + 1 = 62 ∨ last = true
    · exact .inl ⟨hop, hflush, by rw [if_pos hop, if_pos hflush], if_neg fun h => h.2 hflush⟩
    · exact .inr (.inl ⟨hop, hflush, by rw [if_pos hop, if_neg hflush], if_pos ⟨hop, hflush⟩⟩)
  · have hpending : (if e.prevOp = some op ∧ ¬ (e.run + 1 = 62 ∨ last = true) then e.run + 1 else 0) = 0 :=
      if_neg fun h => hop h.1
    rcases Nat.eq_zero_or_pos e.run with hrun | hrun
    · exact .inr (.inr (.inr ⟨hop, hrun, by simp [hop, hrun], hpending⟩))
    · exact .inr (.inr (.inl ⟨hop, hrun, by simp [hop, hrun], hpending⟩))

/-- `RunFold` emits the opcodes of `Enc.folded` and leaves `Enc.pendingAfter` repeats pending. -/
theorem runFold_eq (op : Instr) (last : Bool) (e : Enc) :
    e.runFold op last =
      { e with run := e.pendingAfter op last, out := e.out ++ (e.folded op last).flatMap encode } := by
  rcases fold_cases e op last with ⟨hop, hflush, hf, hp⟩ | ⟨hop, hflush, hf, hp⟩ | ⟨hop, hrun, hf, hp⟩ |
    ⟨hop, hrun, hf, hp⟩ <;> rw [hf, hp, Enc.runFold]
  · simp only [if_pos hop, Enc.foldRepeat, if_pos hflush]
    simp [Enc.flushRun, Enc.emit]
  · simp only [if_pos hop, Enc.foldRepeat, if_neg hflush]
    simp
  · simp [hop, hrun, Enc.foldOther, Enc.flushRun, Enc.emit]
  · simp [hop, hrun, Enc.foldOther, Enc.emit]

/-- The length of a run from its field, for the runs that are flushed (R36, R99). -/
theorem toNat_runField {n : Nat} (h1 : 1 ≤ n) (h62 : n ≤ 62) : (runField n).toNat + 1 = n := by
  rw [runField, BitVec.toNat_ofNat]
  omega

theorem wellFormed_run_runField {n : Nat} (h1 : 1 ≤ n) (h62 : n ≤ 62) :
    (Instr.run (runField n)).wellFormed = true := by
  have hfield := toNat_runField h1 h62
  exact decide_eq_true (by omega)

theorem pixelsOf_run_runField {n : Nat} (h1 : 1 ≤ n) (h62 : n ≤ 62) :
    Safety.pixelsOf (.run (runField n)) = n := toNat_runField h1 h62

theorem pixelsOf_of_producesPixel {i : Instr} (h : i.producesPixel = true) : Safety.pixelsOf i = 1 := by
  cases i with
  | run _ => cases h
  | none => cases h
  | _ => rfl

theorem isRun_of_producesPixel {i : Instr} (h : i.producesPixel = true) : Safety.isRun i = false := by
  cases i with
  | run _ => cases h
  | _ => rfl

theorem folded_wellFormed {op : Instr} (hop : op.producesPixel = true) (hrun : e.run ≤ 61) (last : Bool) :
    ∀ i ∈ e.folded op last, i.wellFormed = true := by
  have hwf : op.wellFormed = true := Safety.wellFormed_of_producesPixel hop
  rcases fold_cases e op last with ⟨-, -, hf, -⟩ | ⟨-, -, hf, -⟩ | ⟨-, hpend, hf, -⟩ | ⟨-, -, hf, -⟩ <;> rw [hf]
  · simpa using wellFormed_run_runField (Nat.le_add_left 1 e.run) (Nat.succ_le_succ hrun)
  · simp
  · simpa [hwf] using wellFormed_run_runField hpend (hrun.trans (by decide))
  · simpa using hwf

/-- A fold accounts for its own pixel: it is emitted, alone or in a RUN, or left pending (R244). -/
theorem folded_pixels {op : Instr} (hop : op.producesPixel = true) (hrun : e.run ≤ 61) (last : Bool) :
    ((e.folded op last).map Safety.pixelsOf).sum + e.pendingAfter op last = e.run + 1 := by
  have hone : Safety.pixelsOf op = 1 := pixelsOf_of_producesPixel hop
  rcases fold_cases e op last with ⟨-, -, hf, hp⟩ | ⟨-, -, hf, hp⟩ | ⟨-, hpend, hf, hp⟩ | ⟨-, h0, hf, hp⟩ <;>
    rw [hf, hp]
  · simp [pixelsOf_run_runField (Nat.le_add_left 1 e.run) (Nat.succ_le_succ hrun)]
  · simp
  · simp [hone, pixelsOf_run_runField hpend (hrun.trans (by decide))]
  · simp [hone, h0]

/-- Where there is no opcode to repeat the fold emits the chosen opcode alone (R241, R243). -/
theorem folded_of_no_prevOp (hprev : e.prevOp = none) (hrun : e.run = 0) (op : Instr) (last : Bool) :
    e.folded op last = [op] := by
  simp [Enc.folded, hprev, hrun]

theorem pendingAfter_le (hrun : e.run ≤ 61) (op : Instr) (last : Bool) : e.pendingAfter op last ≤ 61 := by
  rcases fold_cases e op last with ⟨-, -, -, hp⟩ | ⟨-, hflush, -, hp⟩ | ⟨-, -, -, hp⟩ | ⟨-, -, -, hp⟩ <;>
    rw [hp] <;> omega

/-- Nothing stays pending after the last pixel (R242). -/
theorem pendingAfter_last (op : Instr) : e.pendingAfter op true = 0 := by
  simp [Enc.pendingAfter]

/-! ### The encoder's moves -/

/-- One encoder step (R231). -/
theorem takePixel_eq (e : Enc) (px : Pixel) :
    e.takePixel px =
      { e with
        cache := (select e.cache e.prev px).2
        prev := px
        prevOp := some (select e.cache e.prev px).1
        run := e.pendingAfter (select e.cache e.prev px).1 (decide (e.i + 1 = e.hdr.pixels))
        i := e.i + 1
        out := e.out ++
          (e.folded (select e.cache e.prev px).1 (decide (e.i + 1 = e.hdr.pixels))).flatMap encode } := by
  unfold Enc.takePixel
  simp only [runFold_eq]
  rfl

theorem headerBytes_ne_nil (m : Magic) (hdr : Header) : headerBytes m hdr ≠ [] := by
  simp [headerBytes, Magic.toBytes]

/-- Everything one move of an ACTIVE encoder can do when it goes on (R230): validation and the header, one pixel, or the
end of the call. -/
theorem encTick_eq_next (h : encTick P e = .next e') :
    (e.out = [] ∧ e' = encBegin P e) ∨
    (∃ px, e.out ≠ [] ∧ e.i < e.hdr.pixels ∧ pixelIn e.hdr.channels e.buf e.i = some px ∧ e' = e.takePixel px) ∨
    (e.out ≠ [] ∧ e.hdr.pixels ≤ e.i ∧ e' = (e.emit endMarker).finish) := by
  unfold encTick at h
  split at h
  case isTrue hout => cases h; exact .inl ⟨hout, rfl⟩
  case isFalse hout =>
    split at h
    case isTrue hi =>
      unfold encStep at h
      split at h
      case h_1 px hpx => cases h; exact .inr (.inl ⟨px, hout, hi, hpx, rfl⟩)
      case h_2 => cases h
    case isFalse hi => cases h; exact .inr (.inr ⟨hout, Nat.le_of_not_lt hi, rfl⟩)

/-- A pixel of the image is in the raw buffer (R149). -/
theorem exists_pixelIn {hdr : Header} {buf : List Byte} {i : Nat} (hv : hdr.valid) (hlen : buf.length = hdr.outLen)
    (hi : i < hdr.pixels) : ∃ px, pixelIn hdr.channels buf i = some px := by
  obtain ⟨-, -, hch, -⟩ := hv
  have hend : (i + 1) * hdr.channels.toNat ≤ buf.length := by
    rw [hlen]
    exact Nat.mul_le_mul_right _ hi
  have hget : ∀ j, j < hdr.channels.toNat → ∃ v, buf[i * hdr.channels.toNat + j]? = some v := fun j hj =>
    ⟨_, List.getElem?_eq_getElem (by rw [Nat.add_one_mul] at hend; omega)⟩
  have h3 : 3 ≤ hdr.channels.toNat := by rcases hch with h | h <;> rw [h] <;> decide
  obtain ⟨r, hr⟩ := hget 0 (by omega)
  obtain ⟨g, hg⟩ := hget 1 (by omega)
  obtain ⟨b, hb⟩ := hget 2 (by omega)
  rw [Nat.add_zero] at hr
  simp only [pixelIn, hr, hg, hb]
  split
  case isTrue h4 =>
    obtain ⟨a, ha⟩ := hget 3 (by rw [h4]; decide)
    rw [ha]
    exact ⟨_, rfl⟩
  case isFalse => exact ⟨_, rfl⟩

end Sys2Proof.Machine

namespace Sys2Proof.Safety

open Sys2Proof.Machine

variable {P : Params} {e e' : Enc} {s t : State}

/-! ### The encoder's registers and moves -/

theorem EncInv.raise (he : EncInv e) (r : ValidationReason) : EncInv (e.raise r) :=
  { he with
    noResult := fun h => by simp at h
    doneResult := fun h => nomatch h
    errorResult := fun _ => ⟨r, rfl⟩
    fresh := fun h => nomatch h
    loop := fun h => nomatch h }

theorem EncInv.emit_finish (he : EncInv e) (bs : List Byte) : EncInv (e.emit bs).finish :=
  { he with
    noResult := fun h => by simp at h
    doneResult := fun _ => ⟨_, rfl⟩
    errorResult := fun h => nomatch h
    fresh := fun h => nomatch h
    loop := fun h => nomatch h }

theorem EncInv.release (he : EncInv e) : EncInv e.release :=
  { he with
    noResult := fun _ => rfl
    doneResult := fun h => nomatch h
    errorResult := fun h => nomatch h
    fresh := fun h => nomatch h
    loop := fun h => nomatch h }

/-- One pixel taken in the loop of a call (R231). -/
theorem EncInv.takePixel (he : EncInv e) (hloop : inEncLoop e) (px : Pixel) : EncInv (e.takePixel px) := by
  obtain ⟨hp, hout, hi⟩ := hloop
  obtain ⟨hv, hlen, -, -⟩ := he.loop hp hout
  have hout' : (e.takePixel px).out ≠ [] := by simp [takePixel_eq, hout]
  rw [takePixel_eq] at hout' ⊢
  exact {
    he with
    cache := select_keeps_cacheInv he.cache _ px
    prevHits := select_cache_read _ _ px
    prevOp := fun op h => by cases h; exact select_producesPixel _ _ px
    run := pendingAfter_le he.run _ _
    runOp := fun _ h => nomatch h
    fresh := fun _ h => absurd h hout'
    loop := fun _ _ => ⟨hv, hlen, hi, fun hlast => by
      simp only at hlast
      simp only [hlast, decide_true, pendingAfter_last]⟩ }

theorem encBegin_keeps_encInv (he : EncInv e) (hp : e.phase = .active) (hout : e.out = []) :
    EncInv (encBegin P e) := by
  unfold encBegin
  split
  case h_1 r _ => exact he.raise r
  case h_2 hvalid =>
    obtain ⟨hv, hlen⟩ := encodeError_eq_none hvalid
    rw [he.fresh hp hout]
    exact {
      encInv_accept e.hdr e.buf with
      fresh := fun _ h => absurd h (headerBytes_ne_nil _ _)
      loop := fun _ _ => ⟨hv, hlen, Nat.zero_le _, fun _ => rfl⟩ }

theorem encTick_keeps_encInv (he : EncInv e) (hp : e.phase = .active) (h : encTick P e = .next e') :
    EncInv e' := by
  rcases encTick_eq_next h with ⟨hout, rfl⟩ | ⟨px, hout, hi, -, rfl⟩ | ⟨-, -, rfl⟩
  · exact encBegin_keeps_encInv he hp hout
  · exact he.takePixel ⟨hp, hout, hi⟩ px
  · exact he.emit_finish endMarker

theorem encTick_goes_on (he : EncInv e) (hp : e.phase = .active) : ∃ e', encTick P e = .next e' := by
  unfold encTick
  split
  case isTrue => exact ⟨_, rfl⟩
  case isFalse hout =>
    split
    case isTrue hi =>
      obtain ⟨hv, hlen, -, -⟩ := he.loop hp hout
      obtain ⟨px, hpx⟩ := exists_pixelIn hv hlen hi
      rw [encStep, hpx]
      exact ⟨_, rfl⟩
    case isFalse => exact ⟨_, rfl⟩

/-! ### The block -/

theorem hostMove_keeps_encInv (he : EncInv s.enc) : EncInv (hostMove s).enc := by
  rcases hostMove_enc_cases s with h | ⟨hdr, buf, -, h⟩ | ⟨-, h⟩ <;> rw [h]
  · exact he
  · exact encInv_accept hdr buf
  · exact he.release

theorem hostMove_keeps_decInv (hd : DecInv s.dec) : DecInv (hostMove s).dec := by
  rcases hostMove_dec_cases s with h | ⟨bytes, -, h⟩ | ⟨-, h⟩ <;> rw [h]
  · exact hd
  · exact decInv_accept bytes
  · exact hd.release

/-- Every step that goes on keeps the invariant of the block. -/
theorem stepWith_keeps_blockInv (hs : BlockInv s) (h : stepWith P s = .next t) : BlockInv t := by
  obtain ⟨he, hd⟩ := hs
  constructor
  · by_cases hp : s.enc.phase = .active
    · exact encTick_keeps_encInv he hp (stepWith_enc_of_active h hp)
    · rw [stepWith_enc_of_not_active h hp]
      exact hostMove_keeps_encInv he
  · by_cases hp : s.dec.phase = .active
    · simpa using decTick_keeps_decInv hd hp (stepWith_dec_of_active h hp)
    · rw [stepWith_dec_of_not_active h hp]
      exact hostMove_keeps_decInv hd

theorem encMove_goes_on (he : EncInv s.enc) : ∃ u, encMove P s = .next u := by
  unfold encMove
  split
  case isTrue hp =>
    obtain ⟨e, htick⟩ := encTick_goes_on (P := P) he hp
    rw [htick]
    exact ⟨_, rfl⟩
  case isFalse => exact ⟨_, rfl⟩

/-- A block in a state of the invariant never stops. -/
theorem stepWith_goes_on (P : Params) (hs : BlockInv s) : ∃ t, stepWith P s = .next t := by
  obtain ⟨he, hd⟩ := hs
  obtain ⟨u, hu⟩ := encMove_goes_on (P := P) he
  rw [stepWith, hu, andThen_next, decMove]
  by_cases hp : s.dec.phase = .active
  · obtain ⟨hdec, -⟩ := encMove_eq_next hu
    rw [hostMove_dec_of_active hp] at hdec
    simp only [hp, decide_true, if_true]
    exact decTick_goes_on (hdec ▸ hd) (hdec ▸ hp)
  · simp [hp]

end Sys2Proof.Safety
end

section
/-! Proofs of the family `40_header.md`, about a whole ENCODE call: what an encoder in its loop has emitted (`Emitted`),
established by the header and kept by every pixel. -/

namespace Sys2Proof.Safety

open Sys2Proof.Machine

variable {P : Params} {s t u : State} {e e' : Enc} {hdr : Header} {buf : List Byte} {ops : List Instr}

/-! ### Runs -/

/-- A run of one step more. -/
theorem runWith_succ {k : Nat} (hrun : runWith P k s = .next t) (hstep : stepWith P t = .next u) :
    runWith P (k + 1) s = .next u := by
  induction k generalizing s with
  | zero =>
    cases hrun
    rw [runWith, hstep]
    rfl
  | succ k ih =>
    obtain ⟨r, hfirst, hrest⟩ := andThen_eq_next hrun
    rw [runWith, hfirst, andThen_next]
    exact ih hrest

/-! ### What the encoder has emitted -/

/-- The encoder stands in the loop of a call of header `hdr` and has emitted the header and the opcodes `ops`,
which with the pending repeats stand for the pixels taken so far (R130, R244, R249). -/
structure Emitted (P : Params) (hdr : Header) (ops : List Instr) (e : Enc) : Prop where
  phase : e.phase = .active
  hdr_eq : e.hdr = hdr
  out_eq : e.out = headerBytes P.magic hdr ++ ops.flatMap encode
  wellFormed : ∀ op ∈ ops, op.wellFormed = true
  firstNoRun : ∀ op, ops.head? = some op → isRun op = false
  pixels : (ops.map pixelsOf).sum + e.run = e.i
  /-- Where no opcode has been emitted there is none to repeat, so that the first opcode is no RUN. -/
  noPrevOp : ops = [] → e.prevOp = none

theorem Emitted.inLoop (he : Emitted P hdr ops e) (hi : e.i < hdr.pixels) : inEncLoop e :=
  ⟨he.phase, by simp [he.out_eq, headerBytes_ne_nil], he.hdr_eq ▸ hi⟩

/-- The first move of a valid call emits the header (R122). -/
theorem encTick_of_valid (hout : e.out = []) (hvalid : encodeError P e.hdr e.buf = none) :
    encTick P e = .next (e.emit (headerBytes P.magic e.hdr)) := by
  rw [encTick, if_pos hout, encBegin, hvalid]

theorem emitted_header (P : Params) (hdr : Header) (buf : List Byte) :
    Emitted P hdr [] ((Enc.accept hdr buf).emit (headerBytes P.magic hdr)) where
  phase := rfl
  hdr_eq := rfl
  out_eq := by simp
  wellFormed := by simp
  firstNoRun := by simp
  pixels := rfl
  noPrevOp := fun _ => rfl

/-- A pixel adds the opcodes that its fold emits (R231). -/
theorem Emitted.takePixel (he : Emitted P hdr ops e) (hinv : EncInv e) (px : Pixel) :
    Emitted P hdr
      (ops ++ e.folded (select e.cache e.prev px).1 (decide (e.i + 1 = e.hdr.pixels))) (e.takePixel px) := by
  have hprod : (select e.cache e.prev px).1.producesPixel = true := select_producesPixel _ _ _
  rw [takePixel_eq]
  generalize (select e.cache e.prev px).1 = op at hprod ⊢
  generalize decide (e.i + 1 = e.hdr.pixels) = last
  have hfirst : ops = [] → e.folded op last = [op] := fun hnil => by
    have hprev : e.prevOp = none := he.noPrevOp hnil
    have hrun : e.run = 0 := Nat.eq_zero_of_not_pos fun hpos => hinv.runOp hpos hprev
    exact folded_of_no_prevOp hprev hrun op last
  have hhead : ∀ i, (ops ++ e.folded op last).head? = some i → isRun i = false := by
    cases ops with
    | nil => simp [hfirst rfl, isRun_of_producesPixel hprod]
    | cons first rest => simpa using he.firstNoRun
  have hsum : ((ops ++ e.folded op last).map pixelsOf).sum + e.pendingAfter op last = e.i + 1 := by
    have hfold := folded_pixels hprod hinv.run last
    have hbefore := he.pixels
    rw [List.map_append, List.sum_append]
    omega
  exact {
    phase := he.phase
    hdr_eq := he.hdr_eq
    out_eq := by simp [he.out_eq]
    wellFormed := fun i hi => (List.mem_append.1 hi).elim (he.wellFormed i) (folded_wellFormed hprod hinv.run last i)
    firstNoRun := hhead
    pixels := hsum
    noPrevOp := fun hnil => by
      obtain ⟨hops, hfolded⟩ := List.append_eq_nil_iff.1 hnil
      rw [hfirst hops] at hfolded
      cases hfolded }

/-- The loop of a valid call: after the header and `k` pixels the encoder has taken exactly these, whatever the host and
the decoder have done (R230). -/
theorem runWith_emitted (hs : BlockInv s) (hacc : s.enc = Enc.accept hdr buf) (hvalid : encodeError P hdr buf = none)
    {k : Nat} (hk : k ≤ hdr.pixels) :
    ∃ t ops, runWith P (k + 1) s = .next t ∧ BlockInv t ∧ Emitted P hdr ops t.enc ∧ t.enc.i = k := by
  induction k with
  | zero =>
    obtain ⟨t, hstep⟩ := stepWith_goes_on P hs
    have htick : encTick P s.enc = .next t.enc := stepWith_enc_of_active hstep (by rw [hacc]; rfl)
    rw [hacc, encTick_of_valid rfl hvalid] at htick
    injection htick with ht
    have hem : Emitted P hdr [] t.enc := ht ▸ emitted_header P hdr buf
    exact ⟨t, [], runWith_succ rfl hstep, stepWith_keeps_blockInv hs hstep, hem, by rw [← ht]; rfl⟩
  | succ k ih =>
    obtain ⟨t, ops, hrun, ht, hem, hi⟩ := ih (Nat.le_of_succ_le hk)
    obtain ⟨u, hstep⟩ := stepWith_goes_on P ht
    obtain ⟨-, hout, hlt⟩ := hem.inLoop (hi ▸ hk)
    rcases encTick_eq_next (stepWith_enc_of_active hstep hem.phase) with ⟨hnil, -⟩ | ⟨px, -, -, -, hpx⟩ | ⟨-, hge, -⟩
    · exact absurd hnil hout
    · refine ⟨u, _, runWith_succ hrun hstep, stepWith_keeps_blockInv ht hstep, hpx ▸ hem.takePixel ht.1 px, ?_⟩
      rw [hpx, takePixel_eq]
      exact congrArg (· + 1) hi
    · omega

/-- The move after the last pixel emits the end marker and ends the call (R127). -/
theorem encTick_of_last (hout : e.out ≠ []) (hi : e.hdr.pixels ≤ e.i) :
    encTick P e = .next (e.emit endMarker).finish := by
  rw [encTick, if_neg hout, if_neg (Nat.not_lt.2 hi)]

/-- Settles O48: the loop leaves the header and the opcodes of the N pixels, no repeat is pending after the last of them,
and one more move adds the end marker. -/
theorem encodeResultIsHeaderOpcodesEndMarker : Obligations.EncodeResultIsHeaderOpcodesEndMarker := by
  intro P s hdr buf hs hacc hvalid
  obtain ⟨t, ops, hrun, ht, hem, hi⟩ := runWith_emitted hs hacc hvalid (le_refl hdr.pixels)
  obtain ⟨u, hstep⟩ := stepWith_goes_on P ht
  have hout : t.enc.out ≠ [] := by simp [hem.out_eq, headerBytes_ne_nil]
  have hlast : t.enc.hdr.pixels = t.enc.i := by rw [hem.hdr_eq, hi]
  have htick : encTick P t.enc = .next u.enc := stepWith_enc_of_active hstep hem.phase
  rw [encTick_of_last hout hlast.le] at htick
  obtain ⟨-, -, -, hnone⟩ := ht.1.loop hem.phase hout
  have hpixels := hem.pixels
  rw [hnone hlast.symm, hi] at hpixels
  injection htick with hu
  refine ⟨u, ops, runWith_succ hrun hstep, ?_, hem.wellFormed, hem.firstNoRun, hpixels⟩
  simp [← hu, hem.out_eq]

end Sys2Proof.Safety
end

section
/-! Proofs of the family `40_header.md`, about one step each: when an engine's part of a step is the move it would make
alone, the checks that both engines share as one chain (R125, R126), and the header's bytes (R11). -/

namespace Sys2Proof.Safety

open Sys2Proof.Machine

variable {P : Params} {s : State} {d : Dec} {e : Enc}

/-! ### An engine's part of a step -/

theorem encBecomes_of_encTick (hp : s.enc.phase = .active) (h : encTick P s.enc = .next e) : encBecomes P s e := by
  rw [encBecomes, stepWith, encMove, if_pos hp, h]
  rfl

theorem decBecomes_of_decTick (hp : s.dec.phase = .active) (h : decTick P s = .next (s.withDec d)) :
    decBecomes P s d := by
  intro u hu
  obtain ⟨hdec, -⟩ := encMove_eq_next hu
  rw [hostMove_dec_of_active hp] at hdec
  calc stepWith P s = decTick P u := by simp [stepWith, hu, decMove, hp]
    _ = decTick P (u.withDec s.dec) := by rw [← hdec, withDec_self]
    _ = .next (u.withDec d) := by rw [decTick_withDec, h]; rfl

theorem decBecomes_decBegin (hp : s.dec.phase = .active) (hrd : s.dec.rd = 0) :
    decBecomes P s (decBegin P s.dec) :=
  decBecomes_of_decTick hp (by rw [decTick, if_pos hrd])

/-! ### The shared checks -/

theorem exceeded_eq_any (P : Params) (n : Nat) :
    Params.exceeded P n = P.maxOutputBytes.any fun m => decide (m < n) := by
  unfold Params.exceeded
  cases P.maxOutputBytes <;> rfl

/-- What depends on the outcome of the shared checks is their chain, with the outcome of each. -/
theorem apply_fieldError {α : Type} (f : Option ValidationReason → α) (P : Params) (width height : U32)
    (ch cs : Byte) :
    f (fieldError P ⟨width, height, ch, cs⟩) =
      if width = 0 then f (some .widthZero)
      else if height = 0 then f (some .heightZero)
      else if ¬ (ch = 3 ∨ ch = 4) then f (some .badChannels)
      else if ¬ (cs = 0 ∨ cs = 1) then f (some .badColorspace)
      else if P.maxOutputBytes.any (fun m => decide (m < width.toNat * height.toNat * ch.toNat)) = true then
        f (some .capacity)
      else f none := by
  simp only [fieldError, apply_ite f, not_or, exceeded_eq_any, Header.outLen, ne_eq]

/-! ### Validation of a call -/

theorem encBegin_of_buf_nil (hbuf : e.buf = []) : encBegin P e = e.raise .empty := by
  simp [encBegin, encodeError, hbuf]

/-- Past the check for an empty buffer: the shared checks, the length, the header (R125, R122). -/
theorem encBegin_of_buf_ne_nil (hbuf : e.buf ≠ []) :
    encBegin P e =
      (fieldError P e.hdr).elim
        (if e.buf.length ≠ e.hdr.outLen then e.raise .lengthMismatch else e.emit (headerBytes P.magic e.hdr))
        e.raise := by
  rw [encBegin, encodeError, if_neg (by simpa using hbuf)]
  cases fieldError P e.hdr with
  | some r => rfl
  | none => by_cases hlen : e.buf.length = e.hdr.outLen <;> simp [hlen]

theorem decBegin_of_inp_nil (hinp : d.inp = []) : decBegin P d = d.raise (.validation .empty) := by
  simp [decBegin, decodeHeader, hinp]

/-- With fewer than 14 bytes there is no header to read (R123). -/
theorem readHeader_of_short {bytes : List Byte} (hshort : bytes.length < headerLength) : readHeader bytes = none := by
  cases hread : readHeader bytes with
  | none => rfl
  | some r => exact absurd (readHeader_eq_some hread) (Nat.not_le.2 hshort)

theorem decBegin_of_short (hne : d.inp ≠ []) (hshort : d.inp.length < headerLength) :
    decBegin P d = d.raise (.validation .shortHeader) := by
  rw [decBegin, decodeHeader, if_neg (by simpa using hne), readHeader_of_short hshort]

/-- Past the checks for the header's bytes: the magic, the shared checks, the header read (R126, R123). -/
theorem decBegin_of_readHeader {found : Magic} {hdr : Header} (hread : readHeader d.inp = some (found, hdr)) :
    decBegin P d =
      if found ≠ P.magic then d.raise (.magicMismatch P.magic found)
      else (fieldError P hdr).elim { d with hdr := hdr, rd := headerLength } fun r => d.raise (.validation r) := by
  have hne : d.inp.length ≠ 0 := fun h => by simp [List.length_eq_zero_iff.1 h, readHeader] at hread
  rw [decBegin, decodeHeader, if_neg hne, hread]
  by_cases hmagic : found = P.magic
  · simp only [hmagic, ne_eq, not_true_eq_false, if_false]
    cases fieldError P hdr <;> rfl
  · simp only [ne_eq, hmagic, not_false_eq_true, if_true]

/-! ### The header's bytes -/

/-- `be32` as the four base-256 digits (R11). -/
theorem be32_eq_ofNat (v : U32) :
    be32 v = [BitVec.ofNat 8 (v.toNat / 2 ^ 24), BitVec.ofNat 8 (v.toNat / 2 ^ 16), BitVec.ofNat 8 (v.toNat / 2 ^ 8),
      BitVec.ofNat 8 v.toNat] := by
  simp [be32, BitVec.extractLsb', Nat.shiftRight_eq_div_pow]

/-- `rd_be32` as the number with these four base-256 digits (R11). -/
theorem toNat_rdBe32 (b0 b1 b2 b3 : Byte) :
    (rdBe32 b0 b1 b2 b3).toNat = b0.toNat * 2 ^ 24 + b1.toNat * 2 ^ 16 + b2.toNat * 2 ^ 8 + b3.toNat := by
  have h1 := b1.isLt
  have h2 := b2.isLt
  have h3 := b3.isLt
  simp only [rdBe32, BitVec.toNat_append]
  rw [← Nat.shiftLeft_add_eq_or_of_lt h1, ← Nat.shiftLeft_add_eq_or_of_lt h2, ← Nat.shiftLeft_add_eq_or_of_lt h3]
  simp only [Nat.shiftLeft_eq]
  omega

theorem eq_rdBe32_of_toNat {v : U32} {b0 b1 b2 b3 : Byte}
    (h : v.toNat = b0.toNat * 2 ^ 24 + b1.toNat * 2 ^ 16 + b2.toNat * 2 ^ 8 + b3.toNat) : v = rdBe32 b0 b1 b2 b3 :=
  BitVec.eq_of_toNat_eq (h.trans (toNat_rdBe32 b0 b1 b2 b3).symm)

/-! ### The obligations -/

/-- Settles O25: after the check for an empty buffer come the shared checks, then the length, then the header. -/
theorem encodeValidatesInOrder : Obligations.EncodeValidatesInOrder := by
  intro P s hp hout width height ch cs hhdr
  apply encBecomes_of_encTick hp
  rw [encTick, if_pos hout]
  congr 1
  by_cases hbuf : s.enc.buf = []
  · rw [if_pos hbuf, encBegin_of_buf_nil hbuf]
  · rw [if_neg hbuf, encBegin_of_buf_ne_nil hbuf, hhdr,
      apply_fieldError fun o => o.elim _ s.enc.raise]
    simp [Header.outLen, Enc.emit, headerBytes, Magic.toBytes, be32_eq_ofNat, hout]

/-- Settles O24: after the checks for the header's bytes and its magic come the shared checks, then the header read. -/
theorem decodeValidatesInOrder : Obligations.DecodeValidatesInOrder := by
  intro P s hp hrd
  have hbegin : decBecomes P s (decBegin P s.dec) := decBecomes_decBegin hp hrd
  refine ⟨fun hnil => ?_, fun hpos hshort => ?_, ?_⟩
  · rwa [decBegin_of_inp_nil hnil] at hbegin
  · rwa [decBegin_of_short (List.length_pos_iff.1 hpos) hshort] at hbegin
  · intro m0 m1 m2 m3 w0 w1 w2 w3 h0 h1 h2 h3 ch cs rest hinp width height hw hh
    have hread : readHeader s.dec.inp = some (⟨m0, m1, m2, m3⟩, ⟨width, height, ch, cs⟩) := by
      rw [hinp, readHeader, eq_rdBe32_of_toNat hw, eq_rdBe32_of_toNat hh]
    rwa [decBegin_of_readHeader hread,
      apply_fieldError fun o => o.elim { s.dec with hdr := ⟨width, height, ch, cs⟩, rd := headerLength }
        fun r => s.dec.raise (.validation r)] at hbegin

/-- Settles O31: the encoder's move after the last pixel is the end marker and the end of the call. -/
theorem endMarkerEndsTheStream : Obligations.EndMarkerEndsTheStream := by
  intro P s hp hout hi
  exact encBecomes_of_encTick hp (encTick_of_last hout hi)

end Sys2Proof.Safety
end

section
/-! Proofs of the family `41_pixel_cache.md`: the packing of a pixel and its hash as numbers, the history cache under
stores, and what a step does to the cache of either engine (`CacheStep`). -/

namespace Sys2Proof.Machine

/-! ### Packing and the hash -/

/-- `rgba(p)` is `rd_be32` of the channels in order (R11, R143). -/
theorem toNat_rgba (p : Pixel) :
    (rgba p).toNat = p.r.toNat * 2 ^ 24 + p.g.toNat * 2 ^ 16 + p.b.toNat * 2 ^ 8 + p.a.toNat :=
  Safety.toNat_rdBe32 p.r p.g p.b p.a

/-- The channels of `from(v)` are the base-256 digits of `v` (R144). -/
theorem toNat_fromRgba (v : BitVec 32) :
    (fromRgba v).r.toNat = v.toNat / 2 ^ 24 ∧ (fromRgba v).g.toNat = v.toNat / 2 ^ 16 % 256 ∧
      (fromRgba v).b.toNat = v.toNat / 2 ^ 8 % 256 ∧ (fromRgba v).a.toNat = v.toNat % 256 := by
  have hv := v.isLt
  simp only [fromRgba, BitVec.extractLsb'_toNat, Nat.shiftRight_eq_div_pow, true_and]
  omega

theorem rgba_fromRgba (v : BitVec 32) : rgba (fromRgba v) = v := by
  obtain ⟨hr, hg, hb, ha⟩ := toNat_fromRgba v
  apply BitVec.eq_of_toNat_eq
  rw [toNat_rgba, hr, hg, hb, ha]
  omega

/-- A pixel is determined by its packed value: the channels are its digits, each below 256. -/
theorem rgba_injective : Function.Injective rgba := by
  rintro ⟨r, g, b, a⟩ ⟨r', g', b', a'⟩ h
  have hval := congrArg BitVec.toNat h
  simp only [toNat_rgba] at hval
  obtain ⟨rfl, rfl, rfl, rfl⟩ : r = r' ∧ g = g' ∧ b = b' ∧ a = a' := by
    refine ⟨?_, ?_, ?_, ?_⟩ <;> bv_omega
  rfl

theorem fromRgba_rgba (p : Pixel) : fromRgba (rgba p) = p := rgba_injective (rgba_fromRgba (rgba p))

theorem toNat_pixelHash (p : Pixel) :
    (pixelHash p).toNat = (p.r.toNat * 3 + p.g.toNat * 5 + p.b.toNat * 7 + p.a.toNat * 11) % 64 :=
  BitVec.toNat_ofNat _ 6

/-- The sum may wrap at 8 bits on the way, because 64 divides 256 (R145). -/
theorem pixelHash_eq_setWidth (p : Pixel) :
    pixelHash p = (p.r * 3 + p.g * 5 + p.b * 7 + p.a * 11 : Byte).setWidth 6 := by
  apply BitVec.eq_of_toNat_eq
  simp only [toNat_pixelHash, BitVec.toNat_setWidth, BitVec.toNat_add, BitVec.toNat_mul, BitVec.ofNat_eq_ofNat,
    BitVec.toNat_ofNat]
  omega

theorem pixelHash_opaqueBlack : pixelHash Pixel.opaqueBlack = 53 := by decide

/-! ### The history cache -/

theorem Cache.lookup_hit_iff (c : Cache) (p : Pixel) : (c.lookup p).2 = true ↔ c.read (pixelHash p) = p :=
  decide_eq_true_iff

/-- After a sequence of stores a slot holds the last pixel of its own hash, or what it held before (R147). -/
theorem Cache.read_foldl_store (c : Cache) (ps : List Pixel) (k : Slot) :
    (ps.foldl Cache.store c).read k =
      (ps.reverse.find? fun p => decide (pixelHash p = k)).getD (c.read k) := by
  induction ps using List.reverseRecOn with
  | nil => rfl
  | append_singleton ps p ih =>
    rw [List.foldl_concat, Cache.read_store, List.reverse_concat, List.find?_cons]
    by_cases hk : k = pixelHash p
    · simp [hk]
    · simp [hk, Ne.symm hk, ih]

end Sys2Proof.Machine

namespace Sys2Proof.Safety

open Sys2Proof.Machine

variable {P : Params} {s t : State}

/-! ### What a step does to a cache -/

/-- The next value of an engine's cache: as it was, fresh at the start of a call (R340), or after one `store` (R147). -/
inductive CacheStep (c : Cache) : Cache → Prop where
  | stays : CacheStep c c
  | resets : CacheStep c Cache.fresh
  | stores (px : Pixel) : CacheStep c (c.store px)

theorem CacheStep.keeps_cacheInv {c c' : Cache} (h : CacheStep c c') (hc : CacheInv c) : CacheInv c' := by
  cases h with
  | stays => exact hc
  | resets => exact cacheInv_fresh
  | stores px => exact cacheInv_store hc px

/-- `Select` leaves the cache on a hit and stores the pixel on a miss (R233, R234). -/
theorem select_cacheStep (c : Cache) (prev px : Pixel) : CacheStep c (select c prev px).2 := by
  unfold select
  split
  · exact .stays
  · exact .stores px

theorem encBegin_cache (P : Params) (e : Enc) : (encBegin P e).cache = e.cache := by
  unfold encBegin
  split <;> rfl

theorem encTick_cacheStep {e e' : Enc} (h : encTick P e = .next e') : CacheStep e.cache e'.cache := by
  rcases encTick_eq_next h with ⟨-, rfl⟩ | ⟨px, -, -, -, rfl⟩ | ⟨-, -, rfl⟩
  · rw [encBegin_cache]
    exact .stays
  · rw [takePixel_eq]
    exact select_cacheStep e.cache e.prev px
  · exact .stays

theorem exec_cacheStep {i : Instr} (h : exec i s = .next t) : CacheStep s.dec.cache t.dec.cache := by
  rcases exec_eq_next h with ⟨-, m, -, rfl⟩ | ⟨n, op, -, -, rfl⟩ | ⟨r, e, -, rfl⟩
  · exact .stores (applied i s.dec)
  · exact .stays
  · exact .stays

theorem decBegin_cache (P : Params) (d : Dec) : (decBegin P d).cache = d.cache := by
  unfold decBegin
  split <;> rfl

theorem decStep_cacheStep (h : decStep s = .next t) : CacheStep s.dec.cache t.dec.cache := by
  rcases decStep_eq_next h with ⟨op, -, -, -, hexec⟩ | ⟨-, -, rfl⟩ | ⟨i, n, -, -, hexec⟩
  · simpa using exec_cacheStep hexec
  · exact .stays
  · simpa using exec_cacheStep hexec

theorem decEnd_cache {d d' : Dec} (h : decEnd d = .next d') : d'.cache = d.cache := by
  rcases decEnd_eq_next h with ⟨-, rfl⟩ | ⟨raw, -, -, rfl⟩ <;> rfl

theorem decTick_cacheStep (h : decTick P s = .next t) : CacheStep s.dec.cache t.dec.cache := by
  rcases decTick_eq_next h with ⟨-, rfl⟩ | ⟨-, -, hstep⟩ | ⟨d, -, -, hend, rfl⟩
  · rw [withDec_dec, decBegin_cache]
    exact .stays
  · exact decStep_cacheStep hstep
  · rw [withDec_dec, decEnd_cache hend]
    exact .stays

theorem hostMove_enc_cacheStep (s : State) : CacheStep s.enc.cache (hostMove s).enc.cache := by
  rcases hostMove_enc_cases s with he | ⟨hdr, buf, -, he⟩ | ⟨-, he⟩ <;> rw [he]
  · exact .stays
  · exact .resets
  · exact .stays

theorem hostMove_dec_cacheStep (s : State) : CacheStep s.dec.cache (hostMove s).dec.cache := by
  rcases hostMove_dec_cases s with hd | ⟨bytes, -, hd⟩ | ⟨-, hd⟩ <;> rw [hd]
  · exact .stays
  · exact .resets
  · exact .stays

theorem stepWith_enc_cacheStep (h : stepWith P s = .next t) : CacheStep s.enc.cache t.enc.cache := by
  by_cases hp : s.enc.phase = .active
  · exact encTick_cacheStep (stepWith_enc_of_active h hp)
  · rw [stepWith_enc_of_not_active h hp]
    exact hostMove_enc_cacheStep s

theorem stepWith_dec_cacheStep (h : stepWith P s = .next t) : CacheStep s.dec.cache t.dec.cache := by
  by_cases hp : s.dec.phase = .active
  · simpa using decTick_cacheStep (stepWith_dec_of_active h hp)
  · rw [stepWith_dec_of_not_active h hp]
    exact hostMove_dec_cacheStep s

/-! ### The obligations -/

/-- Settles O42: each engine's own move keeps its invariant, and so does what the host does to an engine that is not
ACTIVE (`stepWith_keeps_blockInv`). -/
theorem stepKeepsTheInvariant : Obligations.StepKeepsTheInvariant :=
  fun _ _ _ => stepWith_keeps_blockInv

/-- Settles O44: a step leaves a cache, makes it fresh, or stores one pixel in the slot of its hash. -/
theorem everySlotHoldsDefaultOrItsOwnHash : Obligations.EverySlotHoldsDefaultOrItsOwnHash := by
  refine ⟨⟨cacheInv_fresh, cacheInv_fresh⟩, fun P s t he hd h => ?_, fun c p => ?_⟩
  · exact ⟨(stepWith_enc_cacheStep h).keeps_cacheInv he, (stepWith_dec_cacheStep h).keeps_cacheInv hd⟩
  · exact ⟨Cache.lookup_hit_iff c p, Cache.lookup_fst c p⟩

/-- Settles O6: the packed value has the channels as its base-256 digits. -/
theorem packingAndUnpackingAreInverse : Obligations.PackingAndUnpackingAreInverse :=
  ⟨toNat_rgba, toNat_fromRgba, fromRgba_rgba, rgba_fromRgba⟩

/-- Settles O7: the sum is exact in the natural numbers, and wrapping it at 8 bits keeps its low 6 bits. -/
theorem hashIsTheSumModSixtyFour : Obligations.HashIsTheSumModSixtyFour :=
  fun p => ⟨toNat_pixelHash p, pixelHash_eq_setWidth p⟩

/-- Settles O9, by induction on the stores, from the last one back. -/
theorem slotHoldsItsLastStore : Obligations.SlotHoldsItsLastStore :=
  ⟨fun _ _ => rfl, Cache.read_foldl_store, Cache.read_fresh⟩

/-- Settles O8: a slot that holds DEFAULT is hit by a pixel only where the pixel is DEFAULT. -/
theorem onlyDefaultHitsADefaultSlot : Obligations.OnlyDefaultHitsADefaultSlot := by
  refine ⟨pixelHash_opaqueBlack, fun c => ?_, fun c p hne hslot => ?_, fun p => ?_⟩
  · rw [Cache.lookup, pixelHash_opaqueBlack]
  · rw [Cache.lookup_snd, hslot]
    exact decide_eq_false hne.symm
  · rw [Cache.lookup_hit_iff, Cache.read_fresh, eq_comm]

end Sys2Proof.Safety
end

section
/-! Proofs of the family `42_opcodes.md`, the serializer and the parser. First the class of a byte by its tag bits and
the fields of a byte, cut out and put together again; then what a parse spells and where it underruns. -/

namespace Sys2Proof

variable {t : Byte} {rest : List Byte} {i : Instr} {n : Nat}

/-! ### Tags and fields -/

/-- The bytes of a class: a tag in the top two bits, or the whole byte. RUN shares its top bits with the two full-byte
tags, and the bound on its field tells it from them (R91 to R97). -/
def OpClass.Tagged (t : Byte) : OpClass → Prop
  | .index => bits t 6 2 = 0b00#2
  | .diff => bits t 6 2 = 0b01#2
  | .luma => bits t 6 2 = 0b10#2
  | .run => bits t 6 2 = 0b11#2 ∧ (bits t 0 6).toNat ≤ 61
  | .rgb => t = 0xFE#8
  | .rgba => t = 0xFF#8
  | .none => False

theorem classify_eq_iff_tagged {c : OpClass} : classify t = c ↔ c.Tagged t := by
  have hrow := classify_cases t
  cases c <;>
    simp only [OpClass.Tagged, BitVec.toNat_eq, toNat_topBits, toNat_lowBits, BitVec.toNat_ofNat] <;>
    grind

/-- The two fields of a byte made of a 2-bit tag and a 6-bit field (R92, R94, R95). -/
@[simp] theorem topBits_append (top : BitVec 2) (low : BitVec 6) : bits (w := 8) (top ++ low) 6 2 = top :=
  BitVec.extractLsb'_append_eq_left

@[simp] theorem lowBits_append (top : BitVec 2) (low : BitVec 6) : bits (w := 8) (top ++ low) 0 6 = low :=
  BitVec.extractLsb'_append_eq_right

/-- The fields of a byte made of a 2-bit tag and three 2-bit fields (R93). -/
theorem fields_append (top x y z : BitVec 2) :
    bits (w := 8) (top ++ x ++ y ++ z) 6 2 = top ∧ bits (w := 8) (top ++ x ++ y ++ z) 4 2 = x ∧
      bits (w := 8) (top ++ x ++ y ++ z) 2 2 = y ∧ bits (w := 8) (top ++ x ++ y ++ z) 0 2 = z := by
  refine ⟨?_, ?_, ?_, BitVec.extractLsb'_append_eq_right⟩
  · calc (top ++ x ++ y ++ z).extractLsb' 6 2
        = (top ++ x ++ y).extractLsb' 4 2 := BitVec.extractLsb'_append_eq_of_le (by decide)
      _ = (top ++ x).extractLsb' 2 2 := BitVec.extractLsb'_append_eq_of_le (by decide)
      _ = top := BitVec.extractLsb'_append_eq_left
  · calc (top ++ x ++ y ++ z).extractLsb' 4 2
        = (top ++ x ++ y).extractLsb' 2 2 := BitVec.extractLsb'_append_eq_of_le (by decide)
      _ = (top ++ x).extractLsb' 0 2 := BitVec.extractLsb'_append_eq_of_le (by decide)
      _ = x := BitVec.extractLsb'_append_eq_right
  · exact (BitVec.extractLsb'_append_eq_of_le (by decide)).trans BitVec.extractLsb'_append_eq_right

/-- The two nibbles of a byte (R94). -/
@[simp] theorem highNibble_append (hi lo : BitVec 4) : bits (w := 8) (hi ++ lo) 4 4 = hi :=
  BitVec.extractLsb'_append_eq_left

@[simp] theorem lowNibble_append (hi lo : BitVec 4) : bits (w := 8) (hi ++ lo) 0 4 = lo :=
  BitVec.extractLsb'_append_eq_right

@[simp] theorem bits_self {w : Nat} (v : BitVec w) : bits v 0 w = v := BitVec.extractLsb'_eq_self

/-- Two neighbouring fields make one. -/
theorem bits_append_bits {w : Nat} (v : BitVec w) (lo len len' : Nat) :
    bits v (lo + len) len' ++ bits v lo len = bits v lo (len' + len) :=
  BitVec.extractLsb'_append_extractLsb'_eq_extractLsb' rfl

/-- A byte is its top two bits and its low six. -/
theorem topBits_append_lowBits (t : Byte) : bits t 6 2 ++ bits t 0 6 = t :=
  (bits_append_bits t 0 6 2).trans (bits_self t)

/-- A byte is its top two bits and the three 2-bit fields below (R93). -/
theorem topBits_append_fields (t : Byte) : bits t 6 2 ++ bits t 4 2 ++ bits t 2 2 ++ bits t 0 2 = t := by
  calc bits t 6 2 ++ bits t 4 2 ++ bits t 2 2 ++ bits t 0 2
      = bits t 4 4 ++ bits t 2 2 ++ bits t 0 2 := by rw [← bits_append_bits t 4 2 2]
    _ = bits t 2 6 ++ bits t 0 2 := by rw [← bits_append_bits t 2 2 4]
    _ = t := (bits_append_bits t 0 2 6).trans (bits_self t)

/-- A byte is its two nibbles (R94). -/
theorem nibbles_append (u : Byte) : bits u 4 4 ++ bits u 0 4 = u :=
  (bits_append_bits u 0 4 4).trans (bits_self u)

/-! ### Parsing what was serialized -/

theorem decode_encode_append (hwf : i.wellFormed = true) (rest : List Byte) :
    decode (encode i ++ rest) = .ok i (encode i).length := by
  cases i with
  | index k =>
    have hclass : classify (0b00#2 ++ k) = .index := classify_eq_iff_tagged.2 (topBits_append _ k)
    simp [encode, decode, hclass]
  | diff dr dg db =>
    obtain ⟨htag, hr, hg, hb⟩ := fields_append 0b01#2 dr dg db
    have hclass : classify (0b01#2 ++ dr ++ dg ++ db) = .diff := classify_eq_iff_tagged.2 htag
    simp [encode, decode, hclass, hr, hg, hb]
  | luma dg drg dbg =>
    have hclass : classify (0b10#2 ++ dg) = .luma := classify_eq_iff_tagged.2 (topBits_append _ dg)
    simp [encode, decode, hclass]
  | run n =>
    have hn : n.toNat ≤ 61 := of_decide_eq_true hwf
    have hclass : classify (0b11#2 ++ n) = .run := classify_eq_iff_tagged.2 ⟨topBits_append _ n, by simpa using hn⟩
    simp [encode, decode, hclass]
  | rgb r g b => rfl
  | rgba r g b a => rfl
  | none => cases hwf

/-! ### Serializing what was parsed -/

theorem encode_of_decode_cons (h : decode (t :: rest) = .ok i n) : encode i = (t :: rest).take n := by
  rcases decode_cons_eq_ok h with ⟨hclass, rfl, rfl⟩ | ⟨hclass, rfl, rfl⟩ | ⟨u, tail, hclass, rfl, rfl, rfl⟩ |
    ⟨hclass, rfl, rfl⟩ | ⟨r, g, b, tail, hclass, rfl, rfl, rfl⟩ | ⟨r, g, b, a, tail, hclass, rfl, rfl, rfl⟩
  · have htag : bits t 6 2 = 0b00#2 := classify_eq_iff_tagged.1 hclass
    rw [encode, ← htag, topBits_append_lowBits]
    rfl
  · have htag : bits t 6 2 = 0b01#2 := classify_eq_iff_tagged.1 hclass
    rw [encode, ← htag, topBits_append_fields]
    rfl
  · have htag : bits t 6 2 = 0b10#2 := classify_eq_iff_tagged.1 hclass
    rw [encode, ← htag, topBits_append_lowBits, nibbles_append]
    rfl
  · obtain ⟨htag, -⟩ : bits t 6 2 = 0b11#2 ∧ _ := classify_eq_iff_tagged.1 hclass
    rw [encode, ← htag, topBits_append_lowBits]
    rfl
  · have htag : t = 0xFE#8 := classify_eq_iff_tagged.1 hclass
    rw [encode, htag]
    rfl
  · have htag : t = 0xFF#8 := classify_eq_iff_tagged.1 hclass
    rw [encode, htag]
    rfl

theorem encode_of_decode {bs : List Byte} (h : decode bs = .ok i n) : encode i = bs.take n := by
  cases bs with
  | nil => cases h
  | cons t rest => exact encode_of_decode_cons h

/-- Every opcode that is parsed has a byte at least (R101). -/
theorem pos_of_decode {bs : List Byte} (h : decode bs = .ok i n) : 0 < n := by
  cases bs with
  | nil => cases h
  | cons t rest =>
    rw [eq_length_of_decode_cons h]
    cases classify t <;> decide

/-- Bytes after an opcode do not change how it is parsed. -/
theorem decode_append {bs : List Byte} (h : decode bs = .ok i n) (rest : List Byte) :
    decode (bs ++ rest) = .ok i n := by
  have hlen : (encode i).length = n := by
    rw [encode_of_decode h, List.length_take_of_le (Safety.le_length_of_decode h)]
  calc decode (bs ++ rest) = decode (encode i ++ (bs.drop n ++ rest)) := by
        rw [encode_of_decode h, ← List.append_assoc, List.take_append_drop]
    _ = .ok i n := by rw [decode_encode_append (onlyWellFormedOpcodesAreParsed _ _ _ h), hlen]

/-! ### Truncated input -/

/-- With a first byte there, the parser asks for the length of its class and nothing else (R172). -/
theorem decode_cons_eq_underrun_iff :
    decode (t :: rest) = .underrun ↔ (t :: rest).length < (classify t).length := by
  cases hclass : classify t <;> simp only [decode, hclass, OpClass.length, List.length_cons]
  case index | diff | run | none => simp
  case luma => rcases rest with _ | ⟨_, _⟩ <;> simp
  case rgb => rcases rest with _ | ⟨_, _ | ⟨_, _ | ⟨_, _⟩⟩⟩ <;> simp
  case rgba => rcases rest with _ | ⟨_, _ | ⟨_, _ | ⟨_, _ | ⟨_, _⟩⟩⟩⟩ <;> simp

/-! ### The obligations -/

/-- Settles O2: the fields of a byte are those it was put together from, and a byte is its tag and its fields. -/
theorem serializerAndParserAreInverse : Obligations.SerializerAndParserAreInverse := by
  refine ⟨fun i => decode_encode_append, fun inp p i n h => ⟨?_, encode_of_decode h⟩⟩
  have hpos : 0 < n := pos_of_decode h
  have hlen : n ≤ (inp.drop p).length := Safety.le_length_of_decode h
  rw [List.length_drop] at hlen
  omega

/-- Settles O4: an empty input has no first byte, and any other is measured against the class of its first byte. -/
theorem underrunExactlyWhenTruncated : Obligations.UnderrunExactlyWhenTruncated := by
  intro bs
  cases bs with
  | nil => simp [decode]
  | cons t rest =>
    rw [decode_cons_eq_underrun_iff]
    simp

end Sys2Proof
end

section
/-! Proofs of the family `42_opcodes.md`, the meanings. First what `produce` and `raise` do to the whole state, then the
arithmetic of the deltas, then the decoder's step where it stands in its loop and the word placed there. -/

namespace Sys2Proof.Safety

open Sys2Proof.Machine

variable {P : Params} {s t : State} {i : Instr} {n : Nat}

/-! ### A pixel produced, an error raised -/

theorem pixelBytes_length_eq_pixelSize (hdr : Header) (px : Pixel) :
    (pixelBytes hdr.channels px).length = pixelSize hdr := pixelBytes_length hdr.channels px

/-- The four channels of a pixel in its bytes (R151). -/
theorem pixelBytes_getElem? (ch : Byte) (px : Pixel) :
    (pixelBytes ch px)[0]? = some px.r ∧ (pixelBytes ch px)[1]? = some px.g ∧ (pixelBytes ch px)[2]? = some px.b ∧
      (ch = 4 → (pixelBytes ch px)[3]? = some px.a) := by
  unfold pixelBytes
  split <;> simp_all

/-- A byte of the pixel that has been written at `w` (R151). -/
theorem read_writeBytes_pixelBytes (m : Memory) (w : Nat) {ch v : Byte} {px : Pixel} {j : Nat}
    (h : (pixelBytes ch px)[j]? = some v) : (m.writeBytes w (pixelBytes ch px)).read (w + j) = some v := by
  obtain ⟨hj, -⟩ := List.getElem?_eq_some_iff.1 h
  rw [Memory.read_writeBytes, if_pos (by omega), Nat.add_sub_cancel_left, h]

/-- Every byte outside the pixel that has been written at `w`. -/
theorem read_writeBytes_outside (m : Memory) {w a : Nat} {hdr : Header} (px : Pixel)
    (h : a < w ∨ w + pixelSize hdr ≤ a) : (m.writeBytes w (pixelBytes hdr.channels px)).read a = m.read a := by
  rw [Memory.read_writeBytes, pixelBytes_length_eq_pixelSize, if_neg (by omega)]

/-- The registers after `Dec.produced` are those of a pixel produced, where OUT has taken the pixel's bytes. -/
theorem produces_produced (op : Instr) (px : Pixel) (s : State) :
    Produces op px s
      (s.withDec (s.dec.produced op px (s.dec.out.writeBytes s.dec.wr (pixelBytes s.dec.hdr.channels px)))) := by
  obtain ⟨hr, hg, hb, ha⟩ := pixelBytes_getElem? s.dec.hdr.channels px
  exact {
    red := read_writeBytes_pixelBytes _ _ hr
    green := read_writeBytes_pixelBytes _ _ hg
    blue := read_writeBytes_pixelBytes _ _ hb
    alpha := fun h4 => read_writeBytes_pixelBytes _ _ (ha h4)
    otherBytes := fun _ => read_writeBytes_outside _ px
    wr := rfl
    cache := Cache.read_store s.dec.cache px
    prev := rfl
    lastOp := rfl
    phase := rfl
    pending := rfl
    rd := rfl
    hdr := rfl
    inp := rfl
    result := rfl
    enc := rfl
    host := rfl
    delivered := rfl }

/-- An opcode that produces a pixel goes on where the pixel fits OUT, and produces what `Apply` gives (R273). -/
theorem exec_produces (hprod : i.producesPixel = true) (hfit : pixelFits s.dec) :
    ∃ t, exec i s = .next t ∧ Produces i (applied i s.dec) s t :=
  ⟨_, by rw [exec_of_producesPixel hprod, produce, pixelOut_of_fits hfit], produces_produced i _ s⟩

/-- An opcode that produces a pixel has produced it wherever it goes on. -/
theorem produces_of_exec (hprod : i.producesPixel = true) (h : exec i s = .next t) :
    Produces i (applied i s.dec) s t := by
  by_cases hfit : pixelFits s.dec
  · obtain ⟨t', ht', hpr⟩ := exec_produces hprod hfit
    rw [h] at ht'
    cases ht'
    exact hpr
  · rw [pixelOutsideOutStops i s hprod hfit] at h
    cases h

theorem raises_raise (e : CallError) (s : State) : Raises e s (s.withDec (s.dec.raise e)) where
  phase := rfl
  result := rfl
  out := Memory.read_nil
  cache := rfl
  prev := rfl
  lastOp := rfl
  pending := rfl
  rd := rfl
  wr := rfl
  hdr := rfl
  inp := rfl
  enc := rfl
  host := rfl
  delivered := rfl

/-! ### Deltas -/

/-- A channel moved by a delta is the sum mod 256 (R10, R173). -/
theorem toNat_addWrap (c : Byte) (delta : Int) : ((addWrap c delta).toNat : Int) = (c.toNat + delta) % 256 := by
  rw [addWrap, wrap8, BitVec.toNat_ofInt]
  exact Int.toNat_of_nonneg (Int.emod_nonneg _ (by decide))

/-! ### The opcode at the read cursor of a decoder in its loop -/

/-- With no repetition pending, the step of a decoder in its loop is the meaning of the opcode at the read cursor, with
the cursor moved past it, in the block `u` that the host and the encoder have left (R273, R275). -/
theorem stepWith_of_decode {u : State} (hloop : inDecLoop s.dec) (hpend : s.dec.pending = 0)
    (hdec : decode (s.dec.inp.drop s.dec.rd) = .ok i n) (hu : encMove P s = .next u) :
    stepWith P s = exec i (u.withDec (s.dec.withRd (s.dec.rd + n))) := by
  obtain ⟨hp, hrd, hwr⟩ := hloop
  obtain ⟨hdu, -⟩ := encMove_eq_next hu
  rw [hostMove_dec_of_active hp] at hdu
  have hnone : i ≠ .none := by
    rintro rfl
    cases onlyWellFormedOpcodesAreParsed _ _ _ hdec
  calc stepWith P s = decTick P u := by simp [stepWith, hu, decMove, hp]
    _ = decParse u := by simp [decTick, decStep, hdu, hrd, hwr, hpend]
    _ = exec i (u.withDec (s.dec.withRd (s.dec.rd + n))) := by simp [decParse, hdu, hdec, hnone]

/-- An encoder that rests and a host that asks nothing leave the block as it is. -/
theorem encMove_of_resting (he : s.enc.phase ≠ .active) (hh : s.host = []) : encMove P s = .next s := by
  rw [encMove, if_neg he, hostMove_of_host_nil hh]

/-- A decoder with opcode bytes placed stands in its loop with no repetition pending (log entry 16). -/
theorem withOpcodeBytes_inDecLoop (d : Dec) (bytes : List Byte) :
    inDecLoop (d.withOpcodeBytes bytes) ∧ (d.withOpcodeBytes bytes).pending = 0 := by
  unfold Dec.withOpcodeBytes
  split
  case isTrue hloop => exact ⟨hloop, rfl⟩
  case isFalse => exact ⟨⟨rfl, (by decide : headerLength ≠ 0), (by decide : 0 < Header.outLen ⟨1, 1, 4, 0⟩)⟩, rfl⟩

/-- The placed bytes stand at the read cursor, with the rest of IN behind them. -/
theorem withOpcodeBytes_drop (d : Dec) (bytes : List Byte) :
    ∃ rest, (d.withOpcodeBytes bytes).inp.drop (d.withOpcodeBytes bytes).rd = bytes ++ rest := by
  have hlen : ∀ (inp : List Byte) (rd : Nat), ((inp ++ List.replicate rd 0).take rd).length = rd := by simp
  unfold Dec.withOpcodeBytes
  simp only [List.append_assoc]
  exact ⟨_, List.drop_left' (hlen _ _)⟩

/-! ### The obligations -/

/-- Settles O10: INDEX is `produce` of the pixel its slot holds. -/
theorem indexProducesTheCachedPixel : Obligations.IndexProducesTheCachedPixel := by
  intro k s hfit
  exact exec_produces (i := .index k) rfl hfit

/-- Settles O11: each colour is moved by its own field less the bias, mod 256. -/
theorem diffProducesThePreviousPixelMoved : Obligations.DiffProducesThePreviousPixelMoved := by
  intro dr dg db s hfit
  obtain ⟨t, hexec, hprod⟩ := exec_produces (i := .diff dr dg db) rfl hfit
  refine ⟨t, _, hexec, hprod, ?_, ?_, ?_, rfl⟩ <;>
    simp only [applied, applyDiff, toNat_addWrap, diffDelta, add_sub_assoc]

/-- Settles O12: green is moved by its own field less the bias, red and blue by that and their own. -/
theorem lumaProducesThePreviousPixelMoved : Obligations.LumaProducesThePreviousPixelMoved := by
  intro dg drg dbg s hfit
  obtain ⟨t, hexec, hprod⟩ := exec_produces (i := .luma dg drg dbg) rfl hfit
  refine ⟨t, _, hexec, hprod, ?_, ?_, ?_, rfl⟩ <;>
    simp only [applied, applyLuma, toNat_addWrap, lumaGreen, lumaCross, add_sub_assoc, add_assoc]

/-- Settles O13: RGB is `produce` of its own channels and alpha 255. -/
theorem rgbProducesAnOpaquePixel : Obligations.RgbProducesAnOpaquePixel := by
  intro r g b s hfit
  exact exec_produces (i := .rgb r g b) rfl hfit

/-- Settles O14: RGBA is `produce` of its own channels. -/
theorem rgbaProducesItsOwnChannels : Obligations.RgbaProducesItsOwnChannels := by
  intro r g b a s hfit
  exact exec_produces (i := .rgba r g b a) rfl hfit

/-- Settles O16: NONE is not well-formed, so it is not parsed; it produces no pixel, so it is not chosen. -/
theorem noneIsAFatalParseError : Obligations.NoneIsAFatalParseError := by
  refine ⟨rfl, fun c prev px hsel => ?_, fun bs n hdec => ?_, fun s => ⟨_, rfl, raises_raise _ s⟩⟩
  · have hprod : (select c prev px).1.producesPixel = true := select_producesPixel c prev px
    rw [hsel] at hprod
    cases hprod
  · cases onlyWellFormedOpcodesAreParsed bs .none n hdec

/-- Settles O18: a next state is one with a pixel produced, with the pending counter loaded, or with an error raised. -/
theorem opcodesChangeOnlyTheirOwnRegisters : Obligations.OpcodesChangeOnlyTheirOwnRegisters := by
  intro i s t h
  rcases exec_eq_next h with ⟨hprod, -⟩ | ⟨n, op, rfl, hop, rfl⟩ | ⟨r, e, hi, rfl⟩
  · have hpr : Produces i (applied i s.dec) s t := produces_of_exec hprod h
    refine ⟨hpr.enc, hpr.host, hpr.delivered, hpr.inp, hpr.hdr, fun _ =>
      ⟨hpr.phase, hpr.result, hpr.pending, hpr.rd, fun k hk => ?_, hpr.otherBytes⟩, ?_, ?_⟩
    · rw [hpr.prev] at hk
      rw [hpr.cache, if_neg hk]
    · rintro n rfl
      cases hprod
    · rintro (rfl | ⟨⟨n, rfl⟩, -⟩) <;> cases hprod
  · refine ⟨rfl, rfl, rfl, rfl, rfl, (fun hprod => nomatch hprod), fun _ _ _ => rfl, ?_⟩
    rintro (hnone | ⟨-, hlast⟩)
    · cases hnone
    · rw [hop] at hlast
      cases hlast
  · have hraise : Raises e (s.withDec (s.dec.withRd r)) (s.withDec ((s.dec.withRd r).raise e)) := raises_raise e _
    refine ⟨rfl, rfl, rfl, rfl, rfl, ?_, ?_, fun _ => ⟨rfl, rfl, rfl, rfl, rfl, rfl, hraise.out, ?_⟩⟩
    · rcases hi with ⟨rfl, -⟩ | ⟨n, rfl, -⟩ <;> exact fun hprod => nomatch hprod
    · rcases hi with ⟨rfl, -⟩ | ⟨n, rfl, hlast, -⟩
      · exact fun _ hrun => nomatch hrun
      · exact fun _ _ hop => absurd hlast hop
    · rcases hi with ⟨rfl, rfl⟩ | ⟨n, rfl, -, rfl⟩ <;> rfl

/-- Settles O20: the placed bytes are those at the read cursor, and bytes after an opcode do not change its parse. -/
theorem placedWordIsTheNextInstruction : Obligations.PlacedWordIsTheNextInstruction := by
  intro s nbits w i n hdec he hh
  refine ⟨by rw [decodeTableWord, hdec], ?_⟩
  obtain ⟨hloop, hpend⟩ := withOpcodeBytes_inDecLoop s.dec (tableBytes nbits w)
  obtain ⟨rest, hrest⟩ := withOpcodeBytes_drop s.dec (tableBytes nbits w)
  have hparse := decode_append hdec rest
  rw [← hrest] at hparse
  exact stepWith_of_decode (s := s.withFetchWord nbits w) hloop hpend hparse (encMove_of_resting he hh)

end Sys2Proof.Safety
end

section
/-! Proofs of the family `43_encoder.md`, about whole ENCODE calls: the number of moves of a valid call (R230), and the
length of what it emits (R247). -/

namespace Sys2Proof.Safety

open Sys2Proof.Machine

variable {P : Params} {s t : State} {e : Enc} {hdr : Header}

/-! ### The end of a call -/

theorem runWith_keeps_blockInv {k : Nat} (hs : BlockInv s) (hrun : runWith P k s = .next t) : BlockInv t := by
  induction k generalizing s with
  | zero =>
    cases hrun
    exact hs
  | succ k ih =>
    obtain ⟨u, hstep, hrest⟩ := andThen_eq_next hrun
    exact ih (stepWith_keeps_blockInv hs hstep) hrest

/-- Only an encoder that is DONE holds a success result (R32). -/
theorem EncInv.phase_of_ok {bs : List Byte} (he : EncInv e) (hresult : e.result = some (.ok bs)) : e.phase = .done := by
  cases hp : e.phase with
  | done => rfl
  | idle => cases hresult.symm.trans (he.noResult (.inl hp))
  | active => cases hresult.symm.trans (he.noResult (.inr hp))
  | error =>
    obtain ⟨r, herror⟩ := he.errorResult hp
    cases hresult.symm.trans herror

/-! ### Sizes -/

theorem headerBytes_length (m : Magic) (hdr : Header) : (headerBytes m hdr).length = 14 := rfl

/-- A well-formed opcode has at least one byte, and at most five for each pixel it stands for (R101). -/
theorem encode_length_bounds {op : Instr} (hwf : op.wellFormed = true) :
    1 ≤ (encode op).length ∧ (encode op).length ≤ 5 * pixelsOf op := by
  cases op with
  | none => cases hwf
  | run n => exact ⟨Nat.le_refl 1, by simp only [encode, pixelsOf, List.length_singleton]; omega⟩
  | _ => exact ⟨by simp [encode], by simp [encode, pixelsOf]⟩

theorem flatMap_encode_length_le {ops : List Instr} (hwf : ∀ op ∈ ops, op.wellFormed = true) :
    (ops.flatMap encode).length ≤ 5 * (ops.map pixelsOf).sum := by
  rw [List.length_flatMap, ← List.sum_map_mul_left]
  exact List.sum_le_sum fun op hop => (encode_length_bounds (hwf op hop)).2

theorem one_le_flatMap_encode_length {ops : List Instr} (hwf : ∀ op ∈ ops, op.wellFormed = true)
    (hpixels : 0 < (ops.map pixelsOf).sum) : 1 ≤ (ops.flatMap encode).length := by
  cases ops with
  | nil => cases hpixels
  | cons op rest =>
    have hop := (encode_length_bounds (hwf op List.mem_cons_self)).1
    rw [List.flatMap_cons, List.length_append]
    omega

theorem pixels_pos_of_valid (hv : hdr.valid) : 0 < hdr.pixels := Nat.mul_pos hv.1 hv.2.1

/-! ### The obligations -/

/-- Settles O47: the loop has taken k pixels after k moves, and the run that has the result (O48) ends in DONE. -/
theorem encodeTakesExactlyNSteps : Obligations.EncodeTakesExactlyNSteps := by
  intro P s hdr buf hs hacc hvalid
  constructor
  · intro k hk
    obtain ⟨t, ops, hrun, -, hem, hi⟩ := runWith_emitted hs hacc hvalid hk
    exact ⟨t, hrun, hem.phase, by simp [hem.out_eq, headerBytes_ne_nil], hi⟩
  · obtain ⟨t, ops, hrun, hresult, -⟩ := encodeResultIsHeaderOpcodesEndMarker P s hdr buf hs hacc hvalid
    exact ⟨t, _, hrun, (runWith_keeps_blockInv hs hrun).1.phase_of_ok hresult, hresult⟩

/-- Settles O49: the opcodes are well-formed and stand for N pixels, and N is not zero. -/
theorem encodeResultSizeIsBounded : Obligations.EncodeResultSizeIsBounded := by
  intro P s hdr buf hs hacc hvalid
  obtain ⟨t, ops, hrun, hresult, hwf, -, hpixels⟩ := encodeResultIsHeaderOpcodesEndMarker P s hdr buf hs hacc hvalid
  have hpos : 0 < (ops.map pixelsOf).sum := hpixels ▸ pixels_pos_of_valid (encodeError_eq_none hvalid).1
  have hlow := one_le_flatMap_encode_length hwf hpos
  have hhigh := flatMap_encode_length_le hwf
  rw [hpixels] at hhigh
  have hmarker : endMarker.length = 9 := rfl
  refine ⟨t, _, hrun, hresult, ?_, ?_⟩ <;>
    rw [List.length_append, List.length_append, headerBytes_length, hmarker] <;> omega

end Sys2Proof.Safety
end

section
/-! Proofs of the family `43_encoder.md`, about the opcode selector (R232 to R239): the signed 8-bit deltas as words,
what each opcode says about the pixel it is chosen for, and the zero deltas and repeated literals it never chooses. -/

namespace Sys2Proof.Machine

/-! ### Deltas -/

/-- `s8` is the signed reading of the wrapped value (R10). -/
theorem s8_eq_toInt_wrap8 (v : Int) : s8 v = (wrap8 v).toInt := by
  rw [wrap8, BitVec.toInt_ofInt, Int.bmod_def]
  unfold s8
  dsimp only
  split_ifs <;> omega

@[simp] theorem wrap8_add (v w : Int) : wrap8 (v + w) = wrap8 v + wrap8 w := BitVec.ofInt_add v w

@[simp] theorem wrap8_sub (v w : Int) : wrap8 (v - w) = wrap8 v - wrap8 w := by
  rw [eq_sub_iff_add_eq, ← wrap8_add, sub_add_cancel]

@[simp] theorem wrap8_toNat (c : Byte) : wrap8 c.toNat = c := by simp [wrap8]

@[simp] theorem wrap8_toInt (c : Byte) : wrap8 c.toInt = c := BitVec.ofInt_toInt

theorem addWrap_eq (c : Byte) (delta : Int) : addWrap c delta = c + wrap8 delta := by
  simp [addWrap]

theorem subSigned_eq (c d : Byte) : subSigned c d = (c - d).toInt := by
  simp [subSigned, s8_eq_toInt_wrap8]

theorem s8_toInt_sub (c d : Byte) : s8 (c.toInt - d.toInt) = (c - d).toInt := by
  simp [s8_eq_toInt_wrap8]

/-! ### Fields: each holds its quantity plus the bias (R99) -/

theorem toNat_diffField {v : Int} (h : -2 ≤ v ∧ v ≤ 1) : ((diffField v).toNat : Int) = v + 2 := by
  rw [diffField, BitVec.toNat_ofInt]
  omega

theorem toNat_lumaGreenField {v : Int} (h : -32 ≤ v ∧ v ≤ 31) : ((lumaGreenField v).toNat : Int) = v + 32 := by
  rw [lumaGreenField, BitVec.toNat_ofInt]
  omega

theorem toNat_lumaCrossField {v : Int} (h : -8 ≤ v ∧ v ≤ 7) : ((lumaCrossField v).toNat : Int) = v + 8 := by
  rw [lumaCrossField, BitVec.toNat_ofInt]
  omega

/-! ### The selector's tests -/

/-- A hit is INDEX and leaves the cache (R233). -/
theorem select_of_hit {c : Cache} {px : Pixel} (hit : c.read (pixelHash px) = px) (prev : Pixel) :
    select c prev px = (.index (pixelHash px), c) := by
  simp [select, hit]

/-- A miss stores the pixel (R234). -/
theorem select_of_miss {c : Cache} {px : Pixel} (miss : c.read (pixelHash px) ≠ px) (prev : Pixel) :
    select c prev px = (selectMissed prev px, c.store px) := by
  simp [select, miss]

/-- The tests after a miss, with the deltas as words (R235 to R239). -/
theorem selectMissed_eq (prev px : Pixel) {vr vg vb vrg vbg : Int}
    (hr : vr = (px.r - prev.r).toInt) (hg : vg = (px.g - prev.g).toInt) (hb : vb = (px.b - prev.b).toInt)
    (hrg : vrg = ((px.r - prev.r) - (px.g - prev.g)).toInt) (hbg : vbg = ((px.b - prev.b) - (px.g - prev.g)).toInt) :
    selectMissed prev px =
      if px.a ≠ prev.a then .rgba px.r px.g px.b px.a
      else if (-2 ≤ vr ∧ vr ≤ 1) ∧ (-2 ≤ vg ∧ vg ≤ 1) ∧ (-2 ≤ vb ∧ vb ≤ 1) then
        .diff (diffField vr) (diffField vg) (diffField vb)
      else if (-8 ≤ vrg ∧ vrg ≤ 7) ∧ (-32 ≤ vg ∧ vg ≤ 31) ∧ (-8 ≤ vbg ∧ vbg ≤ 7) then
        .luma (lumaGreenField vg) (lumaCrossField vrg) (lumaCrossField vbg)
      else .rgb px.r px.g px.b := by
  subst hr hg hb hrg hbg
  simp only [selectMissed, subSigned_eq, s8_toInt_sub]

/-! ### What the chosen opcode says about the pixel -/

/-- A DIFF field moves the previous channel to the pixel's. -/
theorem addWrap_diffDelta {c d : Byte} (h : -2 ≤ (c - d).toInt ∧ (c - d).toInt ≤ 1) :
    addWrap d (diffDelta (diffField (c - d).toInt)) = c := by
  rw [diffDelta, toNat_diffField h, add_sub_cancel_right, addWrap_eq, wrap8_toInt, add_sub_cancel]

/-- The LUMA green field moves the previous green to the pixel's. -/
theorem addWrap_lumaGreen {c d : Byte} (h : -32 ≤ (c - d).toInt ∧ (c - d).toInt ≤ 31) :
    addWrap d (lumaGreen (lumaGreenField (c - d).toInt)) = c := by
  rw [lumaGreen, toNat_lumaGreenField h, add_sub_cancel_right, addWrap_eq, wrap8_toInt, add_sub_cancel]

/-- A LUMA cross field moves the previous red or blue, with the green delta `g`, to the pixel's. -/
theorem addWrap_lumaCross {c d g : Byte} (hg : -32 ≤ g.toInt ∧ g.toInt ≤ 31)
    (h : -8 ≤ (c - d - g).toInt ∧ (c - d - g).toInt ≤ 7) :
    addWrap d (lumaGreen (lumaGreenField g.toInt) + lumaCross (lumaCrossField (c - d - g).toInt)) = c := by
  rw [lumaGreen, toNat_lumaGreenField hg, lumaCross, toNat_lumaCrossField h, add_sub_cancel_right, add_sub_cancel_right,
    addWrap_eq, wrap8_add, wrap8_toInt, wrap8_toInt, add_sub_cancel, add_sub_cancel]

/-- What the opcode chosen on a miss says about the pixel `px`: applied to the previous pixel it gives `px`, save that
RGB says of alpha only that it has not changed (R235 to R239). -/
def Tells (prev px : Pixel) : Instr → Prop
  | .diff dr dg db => applyDiff dr dg db prev = px
  | .luma dg drg dbg => applyLuma dg drg dbg prev = px
  | .rgb r g b => px = ⟨r, g, b, prev.a⟩
  | .rgba r g b a => px = ⟨r, g, b, a⟩
  | .index _ => False
  | .run _ => False
  | .none => False

theorem tells_selectMissed (prev px : Pixel) : Tells prev px (selectMissed prev px) := by
  rw [selectMissed_eq prev px rfl rfl rfl rfl rfl]
  split_ifs with ha hdiff hluma
  · rfl
  · obtain ⟨hr, hg, hb⟩ := hdiff
    rw [Tells, applyDiff, addWrap_diffDelta hr, addWrap_diffDelta hg, addWrap_diffDelta hb, ← not_not.1 ha]
  · obtain ⟨hrg, hg, hbg⟩ := hluma
    rw [Tells, applyLuma, addWrap_lumaCross hg hrg, addWrap_lumaGreen hg, addWrap_lumaCross hg hbg, ← not_not.1 ha]
  · rw [Tells, ← not_not.1 ha]

/-- The inversion of `Select`: an opcode other than INDEX was chosen on a miss, and tells the pixel. -/
theorem tells_of_select {c : Cache} {prev px : Pixel} {op : Instr} (h : (select c prev px).1 = op)
    (hop : ∀ k, op ≠ .index k) : c.read (pixelHash px) ≠ px ∧ Tells prev px op := by
  by_cases hit : c.read (pixelHash px) = px
  · rw [select_of_hit hit] at h
    exact absurd h.symm (hop _)
  · rw [select_of_miss hit] at h
    exact ⟨hit, h ▸ tells_selectMissed prev px⟩

/-- The zero DIFF leaves the pixel as it was. -/
theorem applyDiff_zero (prev : Pixel) : applyDiff 2 2 2 prev = prev := by
  simp [applyDiff, addWrap_eq, diffDelta, wrap8]

/-- The zero LUMA leaves the pixel as it was. -/
theorem applyLuma_zero (prev : Pixel) : applyLuma 32 8 8 prev = prev := by
  simp [applyLuma, addWrap_eq, lumaGreen, lumaCross, wrap8]

/-! ### The obligations -/

/-- Settles O26: the tests with the deltas as words, each branch with its fields. -/
theorem selectorTestsInPriorityOrder : Obligations.SelectorTestsInPriorityOrder := by
  intro c prev px vr vg vb vrg vbg hr hg hb hrg hbg
  refine ⟨fun hit => select_of_hit hit prev, fun miss => ?_⟩
  rw [select_of_miss miss, selectMissed_eq prev px hr hg hb hrg hbg]
  refine ⟨rfl, fun ha => if_pos ha, fun ha => ?_⟩
  dsimp only
  rw [if_neg (not_not.2 ha)]
  constructor
  · intro hdiff
    obtain ⟨hvr, hvg, hvb⟩ := hdiff
    exact ⟨_, _, _, if_pos ⟨hvr, hvg, hvb⟩, toNat_diffField hvr, toNat_diffField hvg, toNat_diffField hvb⟩
  · intro hdiff
    rw [if_neg hdiff]
    refine ⟨fun hluma => ?_, fun hluma => if_neg hluma⟩
    obtain ⟨hvrg, hvg, hvbg⟩ := hluma
    exact ⟨_, _, _, if_pos ⟨hvrg, hvg, hvbg⟩, toNat_lumaGreenField hvg, toNat_lumaCrossField hvrg,
      toNat_lumaCrossField hvbg⟩

/-- Settles O27: a zero delta, or a literal like the one before, means a pixel that is already in the cache. -/
theorem selectorNeverChoosesAZeroDelta : Obligations.SelectorNeverChoosesAZeroDelta := by
  refine ⟨Cache.read_fresh _, fun c prev px hprev => ⟨fun hsel => ?_, fun hsel => ?_⟩,
    fun c prev px px' r g b a => ⟨fun hsel hsel' => ?_, fun hsel hsel' => ?_⟩⟩
  · obtain ⟨miss, hpx⟩ := tells_of_select hsel (by simp)
    rw [Tells, applyDiff_zero] at hpx
    exact miss (hpx ▸ hprev)
  · obtain ⟨miss, hpx⟩ := tells_of_select hsel (by simp)
    rw [Tells, applyLuma_zero] at hpx
    exact miss (hpx ▸ hprev)
  · obtain ⟨-, hpx : px = ⟨r, g, b, prev.a⟩⟩ := tells_of_select hsel (by simp)
    obtain ⟨miss, hpx' : px' = ⟨r, g, b, px.a⟩⟩ := tells_of_select hsel' (by simp)
    have hsame : px = px' := by rw [hpx', hpx]
    exact miss (hsame ▸ select_cache_read c prev px)
  · obtain ⟨-, hpx : px = ⟨r, g, b, a⟩⟩ := tells_of_select hsel (by simp)
    obtain ⟨miss, hpx' : px' = ⟨r, g, b, a⟩⟩ := tells_of_select hsel' (by simp)
    have hsame : px = px' := hpx.trans hpx'.symm
    exact miss (hsame ▸ select_cache_read c prev px)

end Sys2Proof.Machine
end

section
/-! Proofs of the family `43_encoder.md`, about the run-length detector (R241 to R243): the bytes that a fold emits, one
encoder step, and a group of repeats (R245). -/

namespace Sys2Proof.Machine

variable {e : Enc} {op : Instr} {last : Bool}

/-- The byte of a RUN of `n` pixels (R95, R99). -/
theorem encode_run_runField {n : Nat} (h1 : 1 ≤ n) (h62 : n ≤ 62) :
    encode (.run (runField n)) = [BitVec.ofNat 8 (0xC0 + (n - 1))] := by
  have hfield : (runField n).toNat = n - 1 := Nat.eq_sub_of_add_eq (toNat_runField h1 h62)
  have hlt : n - 1 < 2 ^ 6 := by omega
  have hbyte : 0b11#2 ++ runField n = BitVec.ofNat 8 (0xC0 + (n - 1)) := by
    apply BitVec.eq_of_toNat_eq
    rw [BitVec.toNat_append, hfield, ← Nat.shiftLeft_add_eq_or_of_lt hlt, BitVec.toNat_ofNat]
    exact (Nat.mod_eq_of_lt (by omega)).symm
  rw [encode, hbyte]

/-! ### One fold -/

/-- A repeat that fills the run, or is the last pixel, flushes it (R242). -/
theorem runFold_of_flush (hop : e.prevOp = some op) (hrun : e.run ≤ 61) (hflush : e.run + 1 = 62 ∨ last = true) :
    e.runFold op last = { e with run := 0, out := e.out ++ [BitVec.ofNat 8 (0xC0 + e.run)] } := by
  have hbyte : encode (.run (runField (e.run + 1))) = [BitVec.ofNat 8 (0xC0 + e.run)] :=
    encode_run_runField (Nat.le_add_left 1 e.run) (Nat.succ_le_succ hrun)
  rw [runFold_eq, Enc.folded, Enc.pendingAfter, if_pos hop, if_pos hflush, if_neg fun h => h.2 hflush,
    List.flatMap_singleton, hbyte]

/-- Any other repeat is counted (R242). -/
theorem runFold_of_count (hop : e.prevOp = some op) (hcount : ¬ (e.run + 1 = 62 ∨ last = true)) :
    e.runFold op last = { e with run := e.run + 1 } := by
  rw [runFold_eq, Enc.folded, Enc.pendingAfter, if_pos hop, if_neg hcount, if_pos ⟨hop, hcount⟩, List.flatMap_nil,
    List.append_nil]

/-- The RUN byte of the repeats that are pending, where there are any (R243). -/
def pendingRun (n : Nat) : List Byte := if n = 0 then [] else [BitVec.ofNat 8 (0xC0 + (n - 1))]

/-- An opcode that is no repeat is emitted behind the pending run (R243). -/
theorem runFold_of_other (hop : e.prevOp ≠ some op) (hrun : e.run ≤ 61) :
    e.runFold op last = { e with run := 0, out := e.out ++ pendingRun e.run ++ encode op } := by
  rw [runFold_eq]
  rcases Nat.eq_zero_or_pos e.run with h0 | hpos
  · simp [Enc.folded, Enc.pendingAfter, pendingRun, hop, h0]
  · have hbyte := encode_run_runField hpos (hrun.trans (by decide))
    simp [Enc.folded, Enc.pendingAfter, pendingRun, hop, hpos, hpos.ne', hbyte]

/-! ### A group of repeats -/

/-- After `k` repeats from an empty counter every full RUN has been emitted and the rest is pending (R245). -/
theorem iterate_runFold (hop : e.prevOp = some op) (hrun : e.run = 0) (k : Nat) :
    (fun e' : Enc => e'.runFold op false)^[k] e =
      { e with run := k % 62, out := e.out ++ List.replicate (k / 62) 0xFD } := by
  induction k with
  | zero =>
    rw [Function.iterate_zero_apply, Nat.zero_mod, Nat.zero_div, List.replicate_zero, List.append_nil, ← hrun]
  | succ k ih =>
    have hle : k % 62 ≤ 61 := Nat.le_of_lt_succ (Nat.mod_lt k (by decide))
    rw [Function.iterate_succ_apply', ih]
    by_cases hfull : k % 62 + 1 = 62
    · have hk : k % 62 = 61 := by omega
      have hmod : (k + 1) % 62 = 0 := by omega
      have hdiv : (k + 1) / 62 = k / 62 + 1 := by omega
      rw [runFold_of_flush (by exact hop) (by exact hle) (.inl hfull), hmod, hdiv, List.replicate_succ', hk,
        ← List.append_assoc]
      rfl
    · have hmod : (k + 1) % 62 = k % 62 + 1 := by omega
      have hdiv : (k + 1) / 62 = k / 62 := by omega
      rw [runFold_of_count (by exact hop) (by simpa using hfull), hmod, hdiv]

end Sys2Proof.Machine

namespace Sys2Proof.Safety

open Sys2Proof.Machine

/-! ### One encoder step -/

/-- In its loop the encoder's move takes the pixel at its index (R230, R231). -/
theorem encTick_of_inEncLoop {P : Params} {e : Enc} {px : Pixel} (hloop : inEncLoop e)
    (hpx : pixelIn e.hdr.channels e.buf e.i = some px) : encTick P e = .next (e.takePixel px) := by
  obtain ⟨-, hout, hi⟩ := hloop
  rw [encTick, if_neg hout, if_pos hi, encStep, hpx]

/-- The registers that a step leaves to the run-length detector (R231). -/
theorem takePixel_runFold (e : Enc) (px : Pixel) :
    (e.takePixel px).out = (e.runFold (select e.cache e.prev px).1 (decide (e.i + 1 = e.hdr.pixels))).out ∧
    (e.takePixel px).run = (e.runFold (select e.cache e.prev px).1 (decide (e.i + 1 = e.hdr.pixels))).run := by
  rw [takePixel_eq, runFold_eq]
  exact ⟨rfl, rfl⟩

/-! ### The obligations -/

/-- Settles O30: the repeats before the end of the group, then the fold that ends it. -/
theorem repeatGroupsFoldBySixtyTwo : Obligations.RepeatGroupsFoldBySixtyTwo := by
  intro e op k hop hrun hk
  constructor
  · intro op' last hne
    rw [iterate_runFold hop hrun, runFold_of_other]
    · rfl
    · simpa [hop] using hne.symm
    · exact Nat.le_of_lt_succ (Nat.mod_lt k (by decide))
  · rw [iterate_runFold hop hrun, runFold_of_flush (by exact hop) _ (.inr rfl)]
    · by_cases hfull : k % 62 = 0
      · have hmod : (k - 1) % 62 = 61 := by omega
        have hdiv : k / 62 = (k - 1) / 62 + 1 := by omega
        rw [if_pos hfull, hdiv, List.replicate_succ']
        simp [hmod]
      · have hmod : (k - 1) % 62 = k % 62 - 1 := by omega
        have hdiv : (k - 1) / 62 = k / 62 := by omega
        simp [hfull, hmod, hdiv]
    · exact Nat.le_of_lt_succ (Nat.mod_lt (k - 1) (by decide))

/-- Settles O29: the step takes the pixel, and its fold is a repeat flushed, a repeat counted, or another opcode. -/
theorem encoderStepFoldsRepeats : Obligations.EncoderStepFoldsRepeats := by
  intro P s px hloop hrun hpx
  obtain ⟨hout, hpending⟩ := takePixel_runFold s.enc px
  refine ⟨s.enc.takePixel px, encBecomes_of_encTick hloop.1 (encTick_of_inEncLoop hloop hpx), ?_⟩
  rw [hout, hpending, takePixel_eq]
  refine ⟨rfl, rfl, rfl, rfl, rfl, rfl, rfl, rfl, fun hop => ⟨fun hflush => ?_, fun hcount => ?_⟩, fun hop => ?_⟩
  · rw [runFold_of_flush hop hrun (by simpa using hflush)]
    exact ⟨rfl, rfl⟩
  · rw [runFold_of_count hop (by simpa using hcount)]
    exact ⟨rfl, rfl⟩
  · rw [runFold_of_other hop hrun]
    exact ⟨rfl, rfl⟩

end Sys2Proof.Safety
end

section
/-! Proofs of the family `44_decoder.md`, about one step each: the step of a decoder that stands in its loop or at the
end of its call, in the block that the host and the encoder have left. -/

namespace Sys2Proof.Safety

open Sys2Proof.Machine

variable {P : Params} {s u : State} {op : Instr}

/-! ### The decoder's part of a step -/

/-- The step of an ACTIVE decoder is its own move in the block `u` that the host and the encoder have left; neither has
touched the decoder (R30). -/
theorem stepWith_of_dec_active (hp : s.dec.phase = .active) (hu : encMove P s = .next u) :
    stepWith P s = decTick P u ∧ u.dec = s.dec := by
  obtain ⟨hdec, -⟩ := encMove_eq_next hu
  exact ⟨by simp [stepWith, hu, decMove, hp], hdec.trans (hostMove_dec_of_active hp)⟩

/-- In the loop the decoder's move is `DecStep()` (R270). -/
theorem decTick_of_inDecLoop (hloop : inDecLoop s.dec) : decTick P s = decStep s := by
  obtain ⟨-, hrd, hwr⟩ := hloop
  rw [decTick, if_neg hrd, if_pos hwr]

/-- At a full OUT the decoder's move is the end of the call (R280). -/
theorem decTick_of_full (hrd : s.dec.rd ≠ 0) (hfull : s.dec.hdr.outLen ≤ s.dec.wr) :
    decTick P s = andThen (decEnd s.dec) fun d => .next (s.withDec d) := by
  rw [decTick, if_neg hrd, if_neg (Nat.not_lt.2 hfull)]

/-- With repetitions pending `DecStep()` is the last opcode again, with one counted down (R274). -/
theorem decStep_of_pending (hpend : 0 < s.dec.pending) (hop : s.dec.lastOp = some op)
    (hprod : op.producesPixel = true) :
    decStep s = exec op (s.withDec (s.dec.withPending (s.dec.pending - 1))) := by
  rw [decStep, if_pos hpend, decRepeat, hop]
  exact if_pos hprod

theorem ne_none_of_decode {bs : List Byte} {i : Instr} {n : Nat} (h : decode bs = .ok i n) : i ≠ .none := by
  rintro rfl
  cases onlyWellFormedOpcodesAreParsed _ _ _ h

/-- With none pending `DecStep()` is the opcode at the read cursor, with the cursor moved past it (R275). -/
theorem decStep_of_decode {n : Nat} (hpend : s.dec.pending = 0) (hdec : decode (s.dec.inp.drop s.dec.rd) = .ok op n) :
    decStep s = exec op (s.withDec (s.dec.withRd (s.dec.rd + n))) := by
  rw [decStep, hpend, if_neg (Nat.lt_irrefl 0), decParse, hdec]
  exact if_neg (ne_none_of_decode hdec)

/-- Where the input ends before the opcode, `DecStep()` raises UNDERRUN at the read cursor (R281). -/
theorem decStep_of_underrun (hpend : s.dec.pending = 0) (hdec : decode (s.dec.inp.drop s.dec.rd) = .underrun) :
    decStep s = .next (s.withDec (s.dec.raise (.parse .underrun s.dec.rd))) := by
  rw [decStep, hpend, if_neg (Nat.lt_irrefl 0), decParse, hdec]

theorem decEnd_of_pending {d : Dec} (hpend : 0 < d.pending) :
    decEnd d = .next (d.raise (.parse .overrun d.rd)) := by
  rw [decEnd, if_pos hpend]

theorem decEnd_of_readBytes {d : Dec} {raw : List Byte} (hpend : d.pending = 0)
    (hraw : d.out.readBytes 0 d.hdr.outLen = some raw) : decEnd d = .next (d.finish raw) := by
  rw [decEnd, hpend, if_neg (Nat.lt_irrefl 0), hraw]

/-! ### The obligations -/

/-- Settles O21: the last opcode produces a pixel, which fits because OUT is not full. -/
theorem pendingStepRepeatsTheLastOpcode : Obligations.PendingStepRepeatsTheLastOpcode := by
  intro P s u hs hloop hpend hu
  obtain ⟨-, hd⟩ := hs
  obtain ⟨hstep, hdec⟩ := stepWith_of_dec_active hloop.1 hu
  obtain ⟨op, hop⟩ := Option.ne_none_iff_exists'.1 (hd.pendingOp hpend)
  have hprod : op.producesPixel = true := hd.lastOp op hop
  obtain ⟨t, ht⟩ := exec_goes_on (s := u.withDec (s.dec.withPending (s.dec.pending - 1)))
    (hd.beforeRepeat hloop.2.1 hop) hloop op
  have hpr := produces_of_exec hprod ht
  refine ⟨op, t, hop, ?_, ht, hpr.rd, hpr.pending, hpr.lastOp, hpr.wr⟩
  rw [← hdec] at hloop hpend hop ht
  rw [hstep, decTick_of_inDecLoop hloop, decStep_of_pending hpend hop hprod, ht]

/-- Settles O22: both cases are those in which the parser underruns (O4). -/
theorem truncatedInputRaisesUnderrun : Obligations.TruncatedInputRaisesUnderrun := by
  intro P s u hloop hpend hu hshort
  obtain ⟨hstep, hdec⟩ := stepWith_of_dec_active hloop.1 hu
  have hunder : decode (s.dec.inp.drop s.dec.rd) = .underrun := by
    rw [underrunExactlyWhenTruncated]
    rcases hshort with hend | ⟨b, hb, hlen⟩
    · exact .inl (List.drop_of_length_le hend)
    · obtain ⟨hrd, rfl⟩ := List.getElem?_eq_some_iff.1 hb
      exact .inr ⟨_, _, List.drop_eq_getElem_cons hrd, by rw [List.length_drop]; omega⟩
  rw [← hdec] at hloop hpend hunder ⊢
  exact ⟨_, by rw [hstep, decTick_of_inDecLoop hloop, decStep_of_underrun hpend hunder], raises_raise _ u⟩

/-- Settles O23: the invariant bounds the write cursor by OUTLEN, and the end of the call tests the pending counter. -/
theorem fullOutputEndsTheCall : Obligations.FullOutputEndsTheCall := by
  refine ⟨fun s hs hp hrd => ?_, fun P s u hp hrd hfull hu => ?_⟩
  · obtain ⟨-, -, -, hwr, -⟩ := hs.2.loop hp hrd
    omega
  · obtain ⟨hstep, hdec⟩ := stepWith_of_dec_active hp hu
    rw [← hdec] at hrd hfull
    rw [hstep, decTick_of_full hrd hfull, ← hdec]
    refine ⟨fun hpend => ⟨_, by rw [decEnd_of_pending hpend]; rfl, raises_raise _ u⟩, fun hpend raw hlen hread => ?_⟩
    rw [decEnd_of_readBytes hpend (Memory.readBytes_eq_some.2 ⟨hlen, by simpa using hread⟩)]
    rfl

/-- Settles O15: the two branches of RUN. -/
theorem runLoadsThePendingCounter : Obligations.RunLoadsThePendingCounter := by
  refine fun n s => ⟨fun op hop => ?_, fun hnone => ⟨_, ?_, raises_raise _ _⟩⟩
  · rw [exec, execRun, hop]
    rfl
  · rw [exec, execRun, hnone]
    rfl

/-- Settles O19: the step of a decoder in its loop, and the encoder's rest and the host's silence. -/
theorem stepRunsTheDecodedOpcode : Obligations.StepRunsTheDecodedOpcode :=
  ⟨fun _ _ _ _ hloop hpend hdec hu => stepWith_of_decode hloop hpend hdec hu,
    fun _ _ _ hloop hpend hdec he hh => stepWith_of_decode hloop hpend hdec (encMove_of_resting he hh)⟩

end Sys2Proof.Safety
end

section
/-! Proof of R283 (family `44_decoder.md`): the moves that a call can still make (`movesLeft`), of which every move of
the loop that does not end the call takes one. -/

namespace Sys2Proof.Safety

open Sys2Proof.Machine

variable {P : Params} {s t : State} {d : Dec} {i : Instr}

/-- The iterations that the loop can still make: one for each byte not read and one for each pixel not written. -/
def movesLeft (d : Dec) : Nat := (d.inp.length - d.rd) + (d.hdr.outLen - d.wr) / d.hdr.channels.toNat

theorem channels_pos_of_valid {hdr : Header} (hv : hdr.valid) : 0 < hdr.channels.toNat := by
  obtain ⟨-, -, hch | hch, -⟩ := hv <;> rw [hch] <;> decide

/-- Room for a pixel is one pixel more than the room after it. -/
theorem room_div_succ {total w c : Nat} (hc : 0 < c) (hfit : w + c ≤ total) :
    (total - (w + c)) / c + 1 = (total - w) / c := by
  rw [Nat.div_eq_sub_div hc (by omega : c ≤ total - w), Nat.sub_sub]

/-- What an opcode does to the registers that measure a call: it raises an error, or leaves the read cursor and moves
the write cursor on, by a pixel if it produces one. -/
theorem exec_cursors (h : exec i s = .next t) :
    t.dec.hdr = s.dec.hdr ∧ t.dec.inp = s.dec.inp ∧
      (t.dec.phase = .error ∨
        t.dec.phase = s.dec.phase ∧ t.dec.rd = s.dec.rd ∧
          t.dec.wr = s.dec.wr + if i.producesPixel = true then s.dec.hdr.channels.toNat else 0) := by
  rcases exec_eq_next h with ⟨hprod, m, -, rfl⟩ | ⟨n, op, rfl, -, rfl⟩ | ⟨r, e, -, rfl⟩
  · exact ⟨rfl, rfl, .inr ⟨rfl, rfl, by simp [hprod]⟩⟩
  · exact ⟨rfl, rfl, .inr ⟨rfl, rfl, rfl⟩⟩
  · exact ⟨rfl, rfl, .inl rfl⟩

/-- A pixel takes the move of its place in OUT. -/
theorem movesLeft_lt_of_pixel {d' : Dec} (hd' : DecInv d') (hp : d'.phase = .active) (hrd : d'.rd ≠ 0)
    (hhdr : d'.hdr = d.hdr) (hinp : d'.inp = d.inp) (hread : d'.rd = d.rd)
    (hwr : d'.wr = d.wr + d.hdr.channels.toNat) : movesLeft d' < movesLeft d := by
  obtain ⟨hv, -, -, hfit, -⟩ := hd'.loop hp hrd
  rw [hhdr] at hv
  rw [hhdr, hwr] at hfit
  have hroom := room_div_succ (channels_pos_of_valid hv) hfit
  simp only [movesLeft, hhdr, hinp, hread, hwr]
  omega

/-- A read takes a move for each of its bytes, whatever is written. -/
theorem movesLeft_lt_of_read {d' : Dec} (hhdr : d'.hdr = d.hdr) (hinp : d'.inp = d.inp) (hread : d.rd < d'.rd)
    (hlen : d'.rd ≤ d.inp.length) (hwr : d.wr ≤ d'.wr) : movesLeft d' < movesLeft d := by
  have hroom : (d.hdr.outLen - d'.wr) / d.hdr.channels.toNat ≤ (d.hdr.outLen - d.wr) / d.hdr.channels.toNat :=
    Nat.div_le_div_right (Nat.sub_le_sub_left hwr _)
  simp only [movesLeft, hhdr, hinp]
  omega

/-- An iteration of the loop raises an error, or goes on with fewer moves left. -/
theorem decStep_ends_or_progresses (hd : DecInv s.dec) (hp : s.dec.phase = .active) (hrd : s.dec.rd ≠ 0)
    (h : decStep s = .next t) :
    t.dec.hdr = s.dec.hdr ∧
      (t.dec.phase = .error ∨ t.dec.phase = .active ∧ t.dec.rd ≠ 0 ∧ movesLeft t.dec < movesLeft s.dec) := by
  have hd' : DecInv t.dec := decStep_keeps_decInv hd hp hrd h
  rcases decStep_eq_next h with ⟨op, -, -, hprod, hexec⟩ | ⟨-, -, rfl⟩ | ⟨i, n, -, hdec, hexec⟩
  · obtain ⟨hhdr, hinp, herr | ⟨hp', hrd', hwr⟩⟩ := exec_cursors hexec
    · exact ⟨hhdr, .inl herr⟩
    · rw [if_pos hprod] at hwr
      have hactive : t.dec.phase = .active := hp'.trans hp
      have hread : t.dec.rd ≠ 0 := hrd' ▸ hrd
      exact ⟨hhdr, .inr ⟨hactive, hread, movesLeft_lt_of_pixel hd' hactive hread hhdr hinp hrd' hwr⟩⟩
  · exact ⟨rfl, .inl rfl⟩
  · have hpos : 0 < n := pos_of_decode hdec
    rw [if_neg (ne_none_of_decode hdec)] at hexec
    obtain ⟨hhdr, hinp, herr | ⟨hp', hrd', hwr⟩⟩ := exec_cursors hexec
    · exact ⟨hhdr, .inl herr⟩
    · rw [withDec_dec, withRd_rd] at hrd'
      have hactive : t.dec.phase = .active := hp'.trans hp
      have hread : t.dec.rd ≠ 0 := by omega
      obtain ⟨-, -, hlen, -⟩ := hd'.loop hactive hread
      refine ⟨hhdr, .inr ⟨hactive, hread, movesLeft_lt_of_read hhdr hinp (by omega) (hinp ▸ hlen) ?_⟩⟩
      exact hwr ▸ Nat.le_add_right _ _

/-- Past the header, a move of the decoder ends the call or goes on with fewer moves left. -/
theorem decTick_ends_or_progresses (hd : DecInv s.dec) (hp : s.dec.phase = .active) (hrd : s.dec.rd ≠ 0)
    (h : decTick P s = .next t) :
    t.dec.hdr = s.dec.hdr ∧
      ((t.dec.phase = .done ∨ t.dec.phase = .error) ∨
        t.dec.phase = .active ∧ t.dec.rd ≠ 0 ∧ movesLeft t.dec < movesLeft s.dec) := by
  rcases decTick_eq_next h with ⟨h0, -⟩ | ⟨-, -, hstep⟩ | ⟨d, -, -, hend, rfl⟩
  · exact absurd h0 hrd
  · obtain ⟨hhdr, herr | hgoes⟩ := decStep_ends_or_progresses hd hp hrd hstep
    · exact ⟨hhdr, .inl (.inr herr)⟩
    · exact ⟨hhdr, .inr hgoes⟩
  · rcases decEnd_eq_next hend with ⟨-, rfl⟩ | ⟨raw, -, -, rfl⟩
    · exact ⟨rfl, .inl (.inr rfl)⟩
    · exact ⟨rfl, .inl (.inl rfl)⟩

/-- A call past its header ends within the moves left and the one that ends it. -/
theorem runWith_ends_within (P : Params) (hs : BlockInv s) (hp : s.dec.phase = .active) (hrd : s.dec.rd ≠ 0) :
    ∃ k t, runWith P k s = .next t ∧ (t.dec.phase = .done ∨ t.dec.phase = .error) ∧ k ≤ movesLeft s.dec + 1 ∧
      t.dec.hdr = s.dec.hdr := by
  induction hm : movesLeft s.dec using Nat.strong_induction_on generalizing s with
  | _ m ih =>
    obtain ⟨u, hstep⟩ := stepWith_goes_on P hs
    obtain ⟨hhdr, hend | ⟨hp', hrd', hlt⟩⟩ :=
      decTick_ends_or_progresses hs.2 hp hrd (stepWith_dec_of_active hstep hp)
    · exact ⟨1, u, runWith_succ rfl hstep, hend, Nat.le_add_left 1 m, hhdr⟩
    · obtain ⟨k, t, hrun, hend, hk, hhdr'⟩ := ih _ (hm ▸ hlt) (stepWith_keeps_blockInv hs hstep) hp' hrd' rfl
      rw [withDec_dec] at hlt
      exact ⟨k + 1, t, by rw [runWith, hstep]; exact hrun, hend, by omega, hhdr'.trans hhdr⟩

/-! ### The first move -/

theorem decBegin_of_error {e : CallError} (h : decodeHeader P d.inp = .error e) : decBegin P d = d.raise e := by
  rw [decBegin, h]

theorem decBegin_of_ok {hdr : Header} (h : decodeHeader P d.inp = .ok hdr) :
    decBegin P d = { d with hdr := hdr, rd := headerLength } := by
  rw [decBegin, h]

theorem decTick_of_begin (hrd : s.dec.rd = 0) : decTick P s = .next (s.withDec (decBegin P s.dec)) := by
  rw [decTick, if_pos hrd]

/-- The first move of a DECODE call is its validation, and the header read (R126, R123). -/
theorem dec_after_first_move {bytes : List Byte} (hacc : s.dec = Dec.accept bytes) (h : stepWith P s = .next t) :
    t.dec = decBegin P (Dec.accept bytes) := by
  have htick : decTick P s = .next (s.withDec t.dec) := stepWith_dec_of_active h (by rw [hacc]; rfl)
  rw [decTick_of_begin (by rw [hacc]; rfl), hacc] at htick
  injection htick with heq
  exact (congrArg State.dec heq).symm

/-- The header read leaves a move for each byte behind it and for each pixel. -/
theorem movesLeft_after_header {bytes : List Byte} {hdr : Header} (hv : hdr.valid) :
    movesLeft { Dec.accept bytes with hdr := hdr, rd := headerLength } = (bytes.length - 14) + hdr.pixels := by
  have hpixels : hdr.outLen / hdr.channels.toNat = hdr.pixels := Nat.mul_div_left _ (channels_pos_of_valid hv)
  simp [movesLeft, headerLength, hpixels]

/-- Settles O46: validation fails, or leaves a loop of at most one move for each byte and for each pixel. -/
theorem decodeEndsWithinItsBound : Obligations.DecodeEndsWithinItsBound := by
  intro P s bytes hs hacc
  obtain ⟨u, hstep⟩ := stepWith_goes_on P hs
  have hu : u.dec = decBegin P (Dec.accept bytes) := dec_after_first_move hacc hstep
  cases hhdr : decodeHeader P bytes with
  | error e =>
    rw [decBegin_of_error hhdr] at hu
    exact ⟨1, u, runWith_succ rfl hstep, .inr (by rw [hu]; rfl), by omega⟩
  | ok hdr =>
    obtain ⟨hv, -⟩ := decodeHeader_eq_ok hhdr
    rw [decBegin_of_ok hhdr] at hu
    obtain ⟨k, t, hrun, hend, hk, hhdr'⟩ := runWith_ends_within P (stepWith_keeps_blockInv hs hstep)
      (by rw [hu]; rfl) (by rw [hu]; exact Nat.succ_ne_zero 13)
    rw [hu, movesLeft_after_header hv] at hk
    have hsame : t.dec.hdr = hdr := by rw [hhdr', hu]
    exact ⟨k + 1, t, by rw [runWith, hstep]; exact hrun, hend, by rw [hsame]; omega⟩

end Sys2Proof.Safety
end

section
/-! Proof of R282 (family `44_decoder.md`): the decoder's move reads no byte at or after the read cursor it leaves, so
that a run that succeeds is also a run on any stream with the same bytes below the final cursor. -/

namespace Sys2Proof.Machine

/-- The decoder with another stream as its IN. -/
def Dec.withInp (d : Dec) (bytes : List Byte) : Dec := { d with inp := bytes }

variable {P : Params} {s t : State} {bytes : List Byte}

@[simp] theorem withInp_phase (d : Dec) (bs : List Byte) : (d.withInp bs).phase = d.phase := rfl
@[simp] theorem withInp_lastOp (d : Dec) (bs : List Byte) : (d.withInp bs).lastOp = d.lastOp := rfl
@[simp] theorem withInp_pending (d : Dec) (bs : List Byte) : (d.withInp bs).pending = d.pending := rfl
@[simp] theorem withInp_rd (d : Dec) (bs : List Byte) : (d.withInp bs).rd = d.rd := rfl
@[simp] theorem withInp_wr (d : Dec) (bs : List Byte) : (d.withInp bs).wr = d.wr := rfl
@[simp] theorem withInp_out (d : Dec) (bs : List Byte) : (d.withInp bs).out = d.out := rfl
@[simp] theorem withInp_hdr (d : Dec) (bs : List Byte) : (d.withInp bs).hdr = d.hdr := rfl
@[simp] theorem withInp_inp (d : Dec) (bs : List Byte) : (d.withInp bs).inp = bs := rfl
@[simp] theorem withInp_result (d : Dec) (bs : List Byte) : (d.withInp bs).result = d.result := rfl
@[simp] theorem withInp_withRd (d : Dec) (bs : List Byte) (n : Nat) :
    (d.withInp bs).withRd n = (d.withRd n).withInp bs := rfl
@[simp] theorem withInp_withPending (d : Dec) (bs : List Byte) (n : Nat) :
    (d.withInp bs).withPending n = (d.withPending n).withInp bs := rfl

/-! ### What is read below the cursor -/

/-- A parse reads no byte after the ones it consumes. -/
theorem decode_of_take_eq {bs bs' : List Byte} {i : Instr} {n : Nat} (h : decode bs = .ok i n)
    (htake : bs'.take n = bs.take n) : decode bs' = .ok i n := by
  have hlen : (encode i).length = n := by
    rw [encode_of_decode h, List.length_take_of_le (Safety.le_length_of_decode h)]
  have hbs : bs' = encode i ++ bs'.drop n := by rw [encode_of_decode h, ← htake, List.take_append_drop]
  rw [hbs, decode_encode_append (onlyWellFormedOpcodesAreParsed _ _ _ h), hlen]

/-- Two streams that agree below an offset agree behind any earlier one, up to there. -/
theorem take_drop_of_take_add {bs bs' : List Byte} {m n : Nat} (h : bs'.take (m + n) = bs.take (m + n)) :
    (bs'.drop m).take n = (bs.drop m).take n := by
  simpa [List.drop_take] using congrArg (List.drop m) h

/-- A header that was read is read from its 14 bytes, whatever stands behind them (R123). -/
theorem readHeader_take_append {bs : List Byte} {r : Magic × Header} (h : readHeader bs = some r)
    (rest : List Byte) : readHeader (bs.take headerLength ++ rest) = some r := by
  unfold readHeader at h
  split at h
  · exact h
  · cases h

/-- Validation passes where the header is there, its magic is the block's and its fields pass (R126). -/
theorem decodeHeader_eq_ok_iff {hdr : Header} :
    decodeHeader P bytes = .ok hdr ↔ readHeader bytes = some (P.magic, hdr) ∧ fieldError P hdr = none := by
  constructor
  · intro h
    unfold decodeHeader at h
    split_ifs at h
    split at h
    case h_1 => cases h
    case h_2 found hdr' hread =>
      split_ifs at h with hmagic
      split at h
      case h_1 => cases h
      case h_2 hfield =>
        cases h
        exact ⟨not_not.1 hmagic ▸ hread, hfield⟩
  · rintro ⟨hread, hfield⟩
    have hlen : bytes.length ≠ 0 := fun h0 => by simp [List.length_eq_zero_iff.1 h0, readHeader] at hread
    simp [decodeHeader, hlen, hread, hfield]

theorem decodeHeader_of_take_eq {bs bs' : List Byte} {hdr : Header} (h : decodeHeader P bs = .ok hdr)
    (htake : bs'.take headerLength = bs.take headerLength) : decodeHeader P bs' = .ok hdr := by
  obtain ⟨hread, hfield⟩ := decodeHeader_eq_ok_iff.1 h
  rw [← List.take_append_drop headerLength bs', htake]
  exact decodeHeader_eq_ok_iff.2 ⟨readHeader_take_append hread _, hfield⟩

/-! ### The decoder's move on another stream

Each lemma: where the move has raised no error, and the other stream agrees below the read cursor it has left, the move
on the other stream is the same. -/

theorem produce_withInp (op : Instr) (px : Pixel) (s : State) (bytes : List Byte) :
    produce op px (s.withDec (s.dec.withInp bytes)) =
      andThen (produce op px s) fun t => .next (t.withDec (t.dec.withInp bytes)) := by
  simp only [produce, withDec_dec, withInp_hdr, withInp_out, withInp_wr]
  split <;> rfl

/-- No opcode reads the stream: what follows it has been parsed. -/
theorem exec_withInp (i : Instr) (s : State) (bytes : List Byte) :
    exec i (s.withDec (s.dec.withInp bytes)) =
      andThen (exec i s) fun t => .next (t.withDec (t.dec.withInp bytes)) := by
  cases i with
  | index _ => exact produce_withInp _ _ s bytes
  | diff _ _ _ => exact produce_withInp _ _ s bytes
  | luma _ _ _ => exact produce_withInp _ _ s bytes
  | run _ =>
    simp only [exec, execRun, withDec_dec, withInp_lastOp]
    split <;> rfl
  | rgb _ _ _ => exact produce_withInp _ _ s bytes
  | rgba _ _ _ _ => exact produce_withInp _ _ s bytes
  | none => rfl

end Sys2Proof.Machine

namespace Sys2Proof.Safety

open Sys2Proof.Machine

variable {P : Params} {s s' t t' : State} {bytes : List Byte}

theorem decBegin_withInp {d : Dec} (hok : (decBegin P d).phase ≠ .error)
    (htake : bytes.take (decBegin P d).rd = d.inp.take (decBegin P d).rd) :
    decBegin P (d.withInp bytes) = (decBegin P d).withInp bytes := by
  cases hhdr : decodeHeader P d.inp with
  | error e =>
    rw [decBegin_of_error hhdr] at hok
    exact absurd rfl hok
  | ok hdr =>
    rw [decBegin_of_ok hhdr] at htake ⊢
    rw [decBegin_of_ok (decodeHeader_of_take_eq hhdr htake)]
    rfl

theorem exec_next_withInp {i : Instr} {d : Dec} (h : exec i (s.withDec d) = .next t) (bytes : List Byte) :
    exec i (s.withDec (d.withInp bytes)) = .next (t.withDec (t.dec.withInp bytes)) := by
  have hexec := exec_withInp i (s.withDec d) bytes
  rwa [h] at hexec

theorem decStep_withInp (h : decStep s = .next t) (hok : t.dec.phase ≠ .error)
    (htake : bytes.take t.dec.rd = s.dec.inp.take t.dec.rd) :
    decStep (s.withDec (s.dec.withInp bytes)) = .next (t.withDec (t.dec.withInp bytes)) := by
  rcases decStep_eq_next h with ⟨op, hpend, hop, hprod, hexec⟩ | ⟨-, -, rfl⟩ | ⟨i, n, hpend, hdec, hexec⟩
  · exact (decStep_of_pending (s := s.withDec (s.dec.withInp bytes)) hpend hop hprod).trans
      (exec_next_withInp hexec bytes)
  · exact absurd rfl hok
  · rw [if_neg (ne_none_of_decode hdec)] at hexec
    obtain ⟨-, -, herr | ⟨-, hrd, -⟩⟩ := exec_cursors hexec
    · exact absurd herr hok
    · rw [hrd] at htake
      have hdec' : decode (bytes.drop s.dec.rd) = .ok i n := decode_of_take_eq hdec (take_drop_of_take_add htake)
      exact (decStep_of_decode (s := s.withDec (s.dec.withInp bytes)) hpend hdec').trans
        (exec_next_withInp hexec bytes)

theorem decEnd_withInp {d d' : Dec} (h : decEnd d = .next d') (hok : d'.phase ≠ .error) :
    decEnd (d.withInp bytes) = .next (d'.withInp bytes) := by
  rcases decEnd_eq_next h with ⟨-, rfl⟩ | ⟨raw, hpend, hraw, rfl⟩
  · exact absurd rfl hok
  · exact decEnd_of_readBytes hpend hraw

theorem decTick_withInp (h : decTick P s = .next t) (hok : t.dec.phase ≠ .error)
    (htake : bytes.take t.dec.rd = s.dec.inp.take t.dec.rd) :
    decTick P (s.withDec (s.dec.withInp bytes)) = .next (t.withDec (t.dec.withInp bytes)) := by
  rcases decTick_eq_next h with ⟨hrd, rfl⟩ | ⟨hrd, hwr, hstep⟩ | ⟨d, hrd, hfull, hend, rfl⟩
  · refine (decTick_of_begin (s := s.withDec (s.dec.withInp bytes)) hrd).trans ?_
    simp only [withDec_dec, withDec_withDec]
    rw [decBegin_withInp hok htake]
  · have hstep' := decStep_withInp hstep hok htake
    rwa [decTick, if_neg (by exact hrd), if_pos (by exact hwr)]
  · refine (decTick_of_full (s := s.withDec (s.dec.withInp bytes)) hrd hfull).trans ?_
    simp only [withDec_dec, withDec_withDec]
    rw [decEnd_withInp hend hok]
    rfl

/-! ### The read cursor along a call that succeeds -/

theorem decBegin_inp (P : Params) (d : Dec) : (decBegin P d).inp = d.inp := by
  unfold decBegin
  split <;> rfl

theorem decStep_reads_on (h : decStep s = .next t) :
    t.dec.inp = s.dec.inp ∧ (t.dec.phase = .error ∨ s.dec.rd ≤ t.dec.rd) := by
  rcases decStep_eq_next h with ⟨op, -, -, -, hexec⟩ | ⟨-, -, rfl⟩ | ⟨i, n, -, hdec, hexec⟩
  · obtain ⟨-, hinp, herr | ⟨-, hrd, -⟩⟩ := exec_cursors hexec
    · exact ⟨hinp, .inl herr⟩
    · exact ⟨hinp, .inr hrd.ge⟩
  · exact ⟨rfl, .inl rfl⟩
  · rw [if_neg (ne_none_of_decode hdec)] at hexec
    obtain ⟨-, hinp, herr | ⟨-, hrd, -⟩⟩ := exec_cursors hexec
    · exact ⟨hinp, .inl herr⟩
    · exact ⟨hinp, .inr (hrd ▸ Nat.le_add_right _ n)⟩

/-- A move of the decoder stays on its stream, and raises an error or does not take the read cursor back. -/
theorem decTick_reads_on (h : decTick P s = .next t) :
    t.dec.inp = s.dec.inp ∧ (t.dec.phase = .error ∨ s.dec.rd ≤ t.dec.rd) := by
  rcases decTick_eq_next h with ⟨hrd, rfl⟩ | ⟨-, -, hstep⟩ | ⟨d, -, -, hend, rfl⟩
  · exact ⟨decBegin_inp P s.dec, .inr (hrd ▸ Nat.zero_le _)⟩
  · exact decStep_reads_on hstep
  · rcases decEnd_eq_next hend with ⟨-, rfl⟩ | ⟨raw, -, -, rfl⟩
    · exact ⟨rfl, .inl rfl⟩
    · exact ⟨rfl, .inr (Nat.le_refl _)⟩

/-- With a host that asks nothing the host keeps silent, and a decoder that is not ACTIVE stays as it is; no
decoder gets another stream. -/
theorem stepWith_of_quiet (hh : s.host = []) (h : stepWith P s = .next t) :
    t.host = [] ∧ (s.dec.phase ≠ .active → t.dec = s.dec) ∧ t.dec.inp = s.dec.inp := by
  obtain ⟨-, -, -, hhost, -⟩ := stepWith_eq_next h
  have hstays : s.dec.phase ≠ .active → t.dec = s.dec := fun hp => by
    rw [stepWith_dec_of_not_active h hp, hostMove_of_host_nil hh]
  refine ⟨by rw [hhost, hostMove_of_host_nil hh, hh], hstays, ?_⟩
  by_cases hp : s.dec.phase = .active
  · simpa using (decTick_reads_on (stepWith_dec_of_active h hp)).1
  · rw [hstays hp]

/-- A step with a quiet host on another stream. -/
theorem stepWith_withInp (hh : s.host = []) (hh' : s'.host = []) (hdec : s'.dec = s.dec.withInp bytes)
    (h : stepWith P s = .next t) (h' : stepWith P s' = .next t') (hok : t.dec.phase ≠ .error)
    (htake : bytes.take t.dec.rd = s.dec.inp.take t.dec.rd) : t'.dec = t.dec.withInp bytes := by
  have hphase : s'.dec.phase = s.dec.phase := by rw [hdec]; rfl
  by_cases hp : s.dec.phase = .active
  · have hmove : decTick P (s.withDec (s.dec.withInp bytes)) = .next (s.withDec (t.dec.withInp bytes)) :=
      decTick_withInp (stepWith_dec_of_active h hp) hok htake
    have hmove' := stepWith_dec_of_active h' (hphase.trans hp)
    have hsame := decTick_withDec s' P (s.withDec (s.dec.withInp bytes))
    rw [withDec_dec, ← hdec, withDec_self, hdec, hmove, hmove'] at hsame
    injection hsame with heq
    exact congrArg State.dec heq
  · rw [(stepWith_of_quiet hh h).2.1 hp, (stepWith_of_quiet hh' h').2.1 (hphase ▸ hp), hdec]

/-- With a quiet host a run that ends in DONE has passed no error, and its read cursor has not gone back. -/
theorem rd_le_of_runWith_done {k : Nat} (hh : s.host = []) (hrun : runWith P k s = .next t)
    (hdone : t.dec.phase = .done) : s.dec.phase ≠ .error ∧ s.dec.rd ≤ t.dec.rd := by
  induction k generalizing s with
  | zero =>
    cases hrun
    exact ⟨by simp [hdone], Nat.le_refl _⟩
  | succ k ih =>
    obtain ⟨u, hstep, hrest⟩ := andThen_eq_next hrun
    obtain ⟨hhu, hstays, -⟩ := stepWith_of_quiet hh hstep
    obtain ⟨hok, hrd⟩ := ih hhu hrest
    by_cases hp : s.dec.phase = .active
    · obtain ⟨-, herr | hle⟩ := decTick_reads_on (stepWith_dec_of_active hstep hp)
      · exact absurd herr hok
      · exact ⟨by simp [hp], hle.trans hrd⟩
    · rw [hstays hp] at hok hrd
      exact ⟨hok, hrd⟩

/-- A run that ends in DONE is the same run on any stream that agrees below the final read cursor. -/
theorem runWith_withInp {k : Nat} (hs' : BlockInv s') (hh : s.host = []) (hh' : s'.host = [])
    (hdec : s'.dec = s.dec.withInp bytes) (hrun : runWith P k s = .next t) (hdone : t.dec.phase = .done)
    (htake : bytes.take t.dec.rd = s.dec.inp.take t.dec.rd) :
    ∃ t', runWith P k s' = .next t' ∧ t'.dec = t.dec.withInp bytes := by
  induction k generalizing s s' with
  | zero =>
    cases hrun
    exact ⟨s', rfl, hdec⟩
  | succ k ih =>
    obtain ⟨u, hstep, hrest⟩ := andThen_eq_next hrun
    obtain ⟨u', hstep'⟩ := stepWith_goes_on P hs'
    obtain ⟨hhu, -, hinp⟩ := stepWith_of_quiet hh hstep
    obtain ⟨hhu', -⟩ := stepWith_of_quiet hh' hstep'
    obtain ⟨hok, hrd⟩ := rd_le_of_runWith_done hhu hrest hdone
    have htake' : bytes.take u.dec.rd = s.dec.inp.take u.dec.rd := by
      simpa [List.take_take, hrd] using congrArg (List.take u.dec.rd) htake
    have hu' : u'.dec = u.dec.withInp bytes := stepWith_withInp hh hh' hdec hstep hstep' hok htake'
    obtain ⟨t', hrun', ht'⟩ := ih (stepWith_keeps_blockInv hs' hstep') hhu hhu' hu' hrest (by rw [hinp]; exact htake)
    exact ⟨t', by rw [runWith, hstep']; exact hrun', ht'⟩

/-- Settles O53: the run on the one stream is a run on the other, step for step. -/
theorem bytesAfterTheLastOpcodeAreIgnored : Obligations.BytesAfterTheLastOpcodeAreIgnored := by
  intro P s s' t bytes bytes' k _ hs' hh hh' hacc hacc' hrun hdone htake
  have hdec : s'.dec = s.dec.withInp bytes' := by rw [hacc, hacc']; rfl
  obtain ⟨t', hrun', ht'⟩ := runWith_withInp hs' hh hh' hdec hrun hdone (by rw [hacc]; exact htake)
  exact ⟨t', hrun', by rw [ht']; exact hdone, by rw [ht']; rfl⟩

end Sys2Proof.Safety
end

section
/-! Proofs of R284 and R285 (family `44_decoder.md`), the two facts the round trip turns on: the opcode chosen for a
pixel gives the pixel back (`applied_select`), and what the run-length detector emits expands to the opcodes chosen
(`Expands`, one constructor for each move of the decoder). -/

namespace Sys2Proof.Machine

variable {d : Dec}

/-! ### One pixel -/

/-- The cache after `Select` is the cache with the pixel stored, on a hit too: there the slot already holds it (R233,
R234, R278). -/
theorem select_cache_eq_store (c : Cache) (prev px : Pixel) : (select c prev px).2 = c.store px := by
  by_cases hit : c.read (pixelHash px) = px
  · rw [select_of_hit hit]
    refine Cache.ext_read fun k => ?_
    rw [Cache.read_store]
    split
    case isTrue hk => rw [hk, hit]
    case isFalse => rfl
  · rw [select_of_miss hit]

/-- Applied in the registers it was chosen in, the chosen opcode gives the pixel back, unless it is an RGB and the
pixel's alpha is not 255 (R284). -/
theorem applied_select {px : Pixel}
    (hsafe : Safety.isRgb (select d.cache d.prev px).1 = true → px.a = 255) :
    applied (select d.cache d.prev px).1 d = px := by
  by_cases hit : d.cache.read (pixelHash px) = px
  · rw [select_of_hit hit]
    exact hit
  · have htells := tells_selectMissed d.prev px
    rw [select_of_miss hit] at hsafe ⊢
    generalize selectMissed d.prev px = op at hsafe htells ⊢
    cases op with
    | index _ | run _ | none => exact htells.elim
    | diff _ _ _ | luma _ _ _ => exact htells
    | rgba r g b a => exact Eq.symm htells
    | rgb r g b =>
      have hpx : px = ⟨r, g, b, d.prev.a⟩ := htells
      have halpha : px.a = 255 := hsafe rfl
      rw [hpx] at halpha ⊢
      exact congrArg (Pixel.mk r g b) halpha.symm

end Sys2Proof.Machine

namespace Sys2Proof.Safety

open Sys2Proof.Machine

variable {pxs : List Pixel} {op : Instr} {ops sels : List Instr}

/-- Settles O28: the chosen opcode produces a pixel, which is the one it was chosen for. -/
theorem selectedOpcodeRebuildsThePixel : Obligations.SelectedOpcodeRebuildsThePixel := by
  intro s px hfit hsafe
  obtain ⟨t, hexec, hpr⟩ := exec_produces (select_producesPixel s.dec.cache s.dec.prev px) hfit
  rw [applied_select hsafe] at hpr
  refine ⟨t, hexec, hpr, Cache.ext_read fun k => ?_⟩
  rw [hpr.cache, select_cache_eq_store, Cache.read_store]

/-! ### The opcodes chosen and the opcodes emitted -/

/-- The opcodes that `Select` chooses for a sequence of pixels, one each (R232). -/
def chosen : Cache → Pixel → List Pixel → List Instr
  | _, _, [] => []
  | c, prev, px :: pxs => (select c prev px).1 :: chosen (select c prev px).2 px pxs

/-- No RGB is chosen for a pixel of alpha other than 255 (R285). -/
def ChosenAlphaSafe : Cache → Pixel → List Pixel → Prop
  | _, _, [] => True
  | c, prev, px :: pxs =>
    (isRgb (select c prev px).1 = true → px.a = 255) ∧ ChosenAlphaSafe (select c prev px).2 px pxs

theorem chosenAlphaSafe_of_opaque (c : Cache) (prev : Pixel) (h : ∀ px ∈ pxs, px.a = 255) :
    ChosenAlphaSafe c prev pxs := by
  induction pxs generalizing c prev with
  | nil => trivial
  | cons px pxs ih =>
    obtain ⟨hpx, hpxs⟩ := List.forall_mem_cons.1 h
    exact ⟨fun _ => hpx, ih _ _ hpxs⟩

/-- With `last` as the opcode to repeat and `n` repetitions pending, the opcodes `ops` stand for the opcodes `sels`, one
for each pixel: each constructor is one move of the decoder (R273 to R276). -/
inductive Expands : Option Instr → Nat → List Instr → List Instr → Prop
  | done {last : Option Instr} : Expands last 0 [] []
  | again {op : Instr} {n : Nat} {ops sels : List Instr} :
      Expands (some op) n ops sels → Expands (some op) (n + 1) ops (op :: sels)
  | opcode {last : Option Instr} {op : Instr} {ops sels : List Instr} :
      Expands (some op) 0 ops sels → Expands last 0 (op :: ops) (op :: sels)
  | run {op : Instr} {n : BitVec 6} {ops sels : List Instr} : (Instr.run n).wellFormed = true →
      Expands (some op) (runLength n) ops sels → Expands (some op) 0 (.run n :: ops) sels

/-- The repeats that an encoder has pending, as opcodes (R241). -/
def repeats (last : Option Instr) (n : Nat) : List Instr :=
  match last with
  | some op => List.replicate n op
  | none => []

@[simp] theorem repeats_zero (last : Option Instr) : repeats last 0 = [] := by
  cases last <;> rfl

/-- Repetitions pending before opcodes that are expanded already (R274). -/
theorem Expands.repeats (h : Expands (some op) 0 ops sels) (n : Nat) :
    Expands (some op) n ops (List.replicate n op ++ sels) := by
  induction n with
  | zero => exact h
  | succ n ih => exact .again ih

/-- A RUN of the pending repeats, where there are any, before opcodes that are expanded already (R242). -/
theorem Expands.runField (h : Expands (some op) 0 ops sels) {n : Nat} (h1 : 1 ≤ n) (h62 : n ≤ 62) :
    Expands (some op) 0 (.run (runField n) :: ops) (List.replicate n op ++ sels) := by
  refine .run (wellFormed_run_runField h1 h62) ?_
  rw [runLength, toNat_runField h1 h62]
  exact h.repeats n

/-- What a fold emits, before what is emitted after it, expands to the repeats that were pending, the pixel's opcode and
what is left after it (R242, R243). -/
theorem expands_folded {e : Enc} (he : EncInv e) (lastPixel : Bool)
    (h : Expands (some op) 0 ops (repeats (some op) (e.pendingAfter op lastPixel) ++ sels)) :
    Expands e.prevOp 0 (e.folded op lastPixel ++ ops) (repeats e.prevOp e.run ++ op :: sels) := by
  have hrun := he.run
  rcases fold_cases e op lastPixel with ⟨hop, -, hf, hp⟩ | ⟨hop, -, hf, hp⟩ | ⟨-, hpos, hf, hp⟩ | ⟨-, h0, hf, hp⟩ <;>
    rw [hp] at h <;> rw [hf]
  · rw [hop]
    have hflush := Expands.runField (h : Expands (some op) 0 ops sels) (Nat.le_add_left 1 e.run) (by omega)
    simpa [repeats, List.replicate_succ'] using hflush
  · rw [hop]
    simpa [repeats, List.replicate_succ'] using h
  · obtain ⟨prevOp, hprev⟩ := Option.ne_none_iff_exists'.1 (he.runOp hpos)
    rw [hprev]
    exact Expands.runField (.opcode h) hpos (by omega)
  · rw [h0, repeats_zero]
    exact .opcode h

end Sys2Proof.Safety
end

section
/-! Proofs of R285 (family `44_decoder.md`), the encoder's side of the round trip: the pixels of an image and its raw
buffer, the moves on the pixels that remain, and the condition on the alphas. -/

namespace Sys2Proof.Safety

open Sys2Proof.Machine

variable {P : Params} {s u : State} {e : Enc} {hdr : Header} {buf : List Byte} {px : Pixel} {pxs : List Pixel}

/-! ### The pixels of an image -/

/-- The pixels of an image from pixel `i` on (R149). -/
def PixelsFrom (hdr : Header) (buf : List Byte) : Nat → List Pixel → Prop
  | i, [] => i = hdr.pixels
  | i, px :: pxs => pixelIn hdr.channels buf i = some px ∧ PixelsFrom hdr buf (i + 1) pxs

theorem PixelsFrom.count {i : Nat} (h : PixelsFrom hdr buf i pxs) : i + pxs.length = hdr.pixels := by
  induction pxs generalizing i with
  | nil => exact h
  | cons px pxs ih =>
    have hrest := ih h.2
    rw [List.length_cons]
    omega

theorem PixelsFrom.mem {i : Nat} (h : PixelsFrom hdr buf i pxs) (hpx : px ∈ pxs) :
    ∃ j, pixelIn hdr.channels buf j = some px := by
  induction pxs generalizing i with
  | nil => cases hpx
  | cons head pxs ih =>
    rcases List.mem_cons.1 hpx with rfl | hrest
    · exact ⟨i, h.1⟩
    · exact ih h.2 hrest

/-- A valid call has all the pixels of its image. -/
theorem exists_pixelsFrom (hv : hdr.valid) (hlen : buf.length = hdr.outLen) {i : Nat} (hi : i ≤ hdr.pixels) :
    ∃ pxs, PixelsFrom hdr buf i pxs := by
  induction hi using Nat.decreasingInduction with
  | self => exact ⟨[], rfl⟩
  | of_succ j hj ih =>
    obtain ⟨pxs, hpxs⟩ := ih
    obtain ⟨px, hpx⟩ := exists_pixelIn hv hlen hj
    exact ⟨px :: pxs, hpx, hpxs⟩

theorem drop_of_getElem?_eq_some {l : List Byte} {i : Nat} {v : Byte} (h : l[i]? = some v) :
    l.drop i = v :: l.drop (i + 1) := by
  rw [List.drop_eq_getElem?_toList_append, h]
  rfl

/-- The pixel that was read at an index has the bytes that stand there (R149, R151). -/
theorem pixelBytes_of_pixelIn (hv : hdr.valid) {i : Nat} (h : pixelIn hdr.channels buf i = some px) :
    pixelBytes hdr.channels px ++ buf.drop ((i + 1) * hdr.channels.toNat) = buf.drop (i * hdr.channels.toNat) := by
  obtain ⟨-, -, hch, -⟩ := hv
  unfold pixelIn at h
  dsimp only at h
  split at h
  case h_2 => cases h
  case h_1 r g b hr hg hb =>
    rw [drop_of_getElem?_eq_some hr, drop_of_getElem?_eq_some hg, drop_of_getElem?_eq_some hb, pixelBytes,
      Nat.add_one_mul]
    rcases hch with hch | hch <;> rw [hch] at h ⊢
    · cases h
      rfl
    · rw [if_pos rfl] at h ⊢
      split at h
      case h_2 => cases h
      case h_1 a ha =>
        cases h
        rw [drop_of_getElem?_eq_some ha]
        rfl

/-- The bytes of the pixels in order are the raw buffer (R62). -/
theorem PixelsFrom.bytes (hv : hdr.valid) (hlen : buf.length = hdr.outLen) {i : Nat} (h : PixelsFrom hdr buf i pxs) :
    pxs.flatMap (pixelBytes hdr.channels) = buf.drop (i * hdr.channels.toNat) := by
  induction pxs generalizing i with
  | nil =>
    have hi : i = hdr.pixels := h
    exact (List.drop_of_length_le (by rw [hlen, hi]; exact Nat.le_refl _)).symm
  | cons px pxs ih => rw [List.flatMap_cons, ih h.2, pixelBytes_of_pixelIn hv h.1]

/-! ### The encoder's moves -/

/-- The encoder stands in the loop of its call, with the pixels `pxs` still to take (R230). -/
structure Remaining (pxs : List Pixel) (e : Enc) : Prop where
  phase : e.phase = .active
  started : e.out ≠ []
  pixels : PixelsFrom e.hdr e.buf e.i pxs

theorem Remaining.inEncLoop (h : Remaining (px :: pxs) e) : inEncLoop e := by
  have hcount := h.pixels.count
  rw [List.length_cons] at hcount
  exact ⟨h.phase, h.started, by omega⟩

theorem Remaining.takePixel (h : Remaining (px :: pxs) e) : Remaining pxs (e.takePixel px) := by
  rw [takePixel_eq]
  exact ⟨h.phase, by simp [h.started], h.pixels.2⟩

/-- A step of the block takes the next of the pixels that remain. -/
theorem stepWith_takes_pixel (h : Remaining (px :: pxs) s.enc) (hstep : stepWith P s = .next u) :
    u.enc = s.enc.takePixel px := by
  have htick := stepWith_enc_of_active hstep h.phase
  rw [encTick_of_inEncLoop h.inEncLoop h.pixels.1] at htick
  injection htick with hu
  exact hu.symm

/-- The first move of a valid call emits the header, and all pixels remain. -/
theorem enc_after_first_move (hacc : s.enc = Enc.accept hdr buf) (hvalid : encodeError P hdr buf = none)
    (hstep : stepWith P s = .next u) : u.enc = (Enc.accept hdr buf).emit (headerBytes P.magic hdr) := by
  have htick : encTick P s.enc = .next u.enc := stepWith_enc_of_active hstep (by rw [hacc]; rfl)
  rw [hacc, encTick_of_valid rfl hvalid] at htick
  injection htick with hu
  exact hu.symm

theorem remaining_after_header (P : Params) (hpxs : PixelsFrom hdr buf 0 pxs) :
    Remaining pxs ((Enc.accept hdr buf).emit (headerBytes P.magic hdr)) :=
  ⟨rfl, headerBytes_ne_nil _ _, hpxs⟩

/-- The call takes the pixels that remain and ends; what it emits expands to the repeats that were pending and the
opcodes chosen for these pixels. -/
theorem runWith_encodes (P : Params) (hs : BlockInv s) (h : Remaining pxs s.enc) :
    ∃ t ops, runWith P (pxs.length + 1) s = .next t ∧
      t.enc.result = some (.ok (s.enc.out ++ ops.flatMap encode ++ endMarker)) ∧
      Expands s.enc.prevOp 0 ops (repeats s.enc.prevOp s.enc.run ++ chosen s.enc.cache s.enc.prev pxs) := by
  induction pxs generalizing s with
  | nil =>
    obtain ⟨u, hstep⟩ := stepWith_goes_on P hs
    have hlast : s.enc.i = s.enc.hdr.pixels := h.pixels
    have htick := stepWith_enc_of_active hstep h.phase
    rw [encTick_of_last h.started hlast.ge] at htick
    injection htick with hu
    obtain ⟨-, -, -, hrun⟩ := hs.1.loop h.phase h.started
    refine ⟨u, [], runWith_succ rfl hstep, by simp [← hu], ?_⟩
    rw [hrun hlast, repeats_zero]
    exact .done
  | cons px pxs ih =>
    obtain ⟨u, hstep⟩ := stepWith_goes_on P hs
    have hu : u.enc = s.enc.takePixel px := stepWith_takes_pixel h hstep
    obtain ⟨t, ops, hrun, hresult, hx⟩ := ih (stepWith_keeps_blockInv hs hstep) (hu ▸ h.takePixel)
    rw [hu, takePixel_eq] at hresult hx
    exact ⟨t, _, by rw [List.length_cons, runWith, hstep]; exact hrun, by simpa using hresult,
      expands_folded hs.1 _ hx⟩

/-- What a valid ENCODE call returns (R130, R244): the header, opcodes that expand to those chosen for the pixels of
the image, and the end marker. -/
theorem runWith_encode_call (hs : BlockInv s) (hacc : s.enc = Enc.accept hdr buf)
    (hvalid : encodeError P hdr buf = none) (hpxs : PixelsFrom hdr buf 0 pxs) :
    ∃ t ops, runWith P (hdr.pixels + 2) s = .next t ∧
      t.enc.result = some (.ok (headerBytes P.magic hdr ++ ops.flatMap encode ++ endMarker)) ∧
      Expands none 0 ops (chosen Cache.fresh Pixel.opaqueBlack pxs) := by
  obtain ⟨u, hstep⟩ := stepWith_goes_on P hs
  have hu := enc_after_first_move hacc hvalid hstep
  obtain ⟨t, ops, hrun, hresult, hx⟩ := runWith_encodes P (stepWith_keeps_blockInv hs hstep)
    (hu ▸ remaining_after_header P hpxs)
  have hcount : pxs.length = hdr.pixels := by simpa using hpxs.count
  rw [hu] at hresult hx
  exact ⟨t, ops, by rw [runWith, hstep, ← hcount]; exact hrun, hresult, hx⟩

/-! ### The condition of the round trip -/

/-- `alphaSafe` for the next `m` steps only. -/
def AlphaSafeFor (P : Params) (m : Nat) (s : State) : Prop :=
  ∀ k u px, k < m → runWith P k s = .next u → inEncLoop u.enc →
    pixelIn u.enc.hdr.channels u.enc.buf u.enc.i = some px →
    isRgb (select u.enc.cache u.enc.prev px).1 = true → px.a = 255

theorem AlphaSafeFor.step {m : Nat} (h : AlphaSafeFor P (m + 1) s) (hstep : stepWith P s = .next u) :
    AlphaSafeFor P m u := fun k v px hk hrun =>
  h (k + 1) v px (Nat.succ_lt_succ hk) (by rw [runWith, hstep]; exact hrun)

theorem AlphaSafeFor.mono {m m' : Nat} (h : AlphaSafeFor P m s) (hle : m' ≤ m) : AlphaSafeFor P m' s :=
  fun k v px hk => h k v px (hk.trans_le hle)

theorem AlphaSafeFor.chosen (hs : BlockInv s) (h : Remaining pxs s.enc) (hsafe : AlphaSafeFor P pxs.length s) :
    ChosenAlphaSafe s.enc.cache s.enc.prev pxs := by
  induction pxs generalizing s with
  | nil => trivial
  | cons px pxs ih =>
    obtain ⟨u, hstep⟩ := stepWith_goes_on P hs
    have hu : u.enc = s.enc.takePixel px := stepWith_takes_pixel h hstep
    have hrest := ih (stepWith_keeps_blockInv hs hstep) (hu ▸ h.takePixel) (hsafe.step hstep)
    rw [hu, takePixel_eq] at hrest
    exact ⟨hsafe 0 s px (Nat.succ_pos _) rfl h.inEncLoop h.pixels.1, hrest⟩

/-- The condition on a call's run is one on the pixels of its image. -/
theorem chosenAlphaSafe_of_alphaSafe (hs : BlockInv s) (hacc : s.enc = Enc.accept hdr buf)
    (hvalid : encodeError P hdr buf = none) (hpxs : PixelsFrom hdr buf 0 pxs) (hsafe : alphaSafe P s) :
    ChosenAlphaSafe Cache.fresh Pixel.opaqueBlack pxs := by
  obtain ⟨u, hstep⟩ := stepWith_goes_on P hs
  have hu := enc_after_first_move hacc hvalid hstep
  have hcount : pxs.length ≤ s.enc.hdr.pixels + 1 := by
    have hpixels := hpxs.count
    rw [hacc, encAccept_hdr]
    omega
  have hsafe' : AlphaSafeFor P (s.enc.hdr.pixels + 2) s := hsafe
  have hchosen := ((hsafe'.step hstep).mono hcount).chosen (stepWith_keeps_blockInv hs hstep)
    (hu ▸ remaining_after_header P hpxs)
  rwa [hu] at hchosen

end Sys2Proof.Safety
end

section
/-! Proofs of R285 (family `44_decoder.md`), the decoder's side of the round trip: the moves on the opcodes that remain,
the two calls together, and the hazard. -/

namespace Sys2Proof.Safety

open Sys2Proof.Machine

variable {P : Params} {s : State} {d : Dec} {hdr : Header} {buf raw tail : List Byte} {px : Pixel}
  {pxs : List Pixel} {op : Instr} {last : Option Instr} {n : Nat} {ops sels : List Instr}

/-! ### OUT -/

theorem writeBytes_append (m : Memory) (a : Nat) (vs ws : List Byte) :
    (m.writeBytes a vs).writeBytes (a + vs.length) ws = m.writeBytes a (vs ++ ws) := by
  induction vs generalizing m a with
  | nil => rfl
  | cons v vs ih =>
    rw [List.length_cons, Nat.add_comm vs.length 1, ← Nat.add_assoc]
    exact ih (m.write a v) (a + 1)

/-- What is written to an empty OUT from its beginning is what is read there. -/
theorem readBytes_writeBytes_nil (vs : List Byte) : (Memory.writeBytes [] 0 vs).readBytes 0 vs.length = some vs := by
  refine Memory.readBytes_eq_some.2 ⟨rfl, fun j hj => ?_⟩
  rw [Memory.read_writeBytes, if_pos (by omega)]
  simp

/-! ### The decoder's moves -/

/-- The decoder stands in its call (of header `hdr`, with raw buffer `raw` as its result) before the pixels `pxs`: `n`
repetitions of `last` are pending, IN continues with the opcodes `ops`, there is room for the pixels, and their bytes
complete the buffer (R273 to R280). -/
structure Awaits (hdr : Header) (raw tail : List Byte) (last : Option Instr) (n : Nat) (ops : List Instr)
    (pxs : List Pixel) (d : Dec) : Prop where
  phase : d.phase = .active
  started : d.rd ≠ 0
  hdr_eq : d.hdr = hdr
  lastOp : d.lastOp = last
  pending : d.pending = n
  input : d.inp.drop d.rd = ops.flatMap encode ++ tail
  room : d.wr + pxs.length * hdr.channels.toNat = hdr.outLen
  buffer : (d.out.writeBytes d.wr (pxs.flatMap (pixelBytes hdr.channels))).readBytes 0 hdr.outLen = some raw
  safe : ChosenAlphaSafe d.cache d.prev pxs

/-- Before a pixel there is room for it. -/
theorem Awaits.fits (h : Awaits hdr raw tail last n ops (px :: pxs) d) :
    d.wr + hdr.channels.toNat ≤ hdr.outLen := by
  have hroom := h.room
  rw [List.length_cons, Nat.add_one_mul] at hroom
  omega

theorem Awaits.inDecLoop (hv : hdr.valid) (h : Awaits hdr raw tail last n ops (px :: pxs) d) : inDecLoop d := by
  have hfits := h.fits
  have hpos := channels_pos_of_valid hv
  exact ⟨h.phase, h.started, by rw [h.hdr_eq]; omega⟩

/-- A repetition counted down (R274). -/
theorem Awaits.countDown (h : Awaits hdr raw tail last (n + 1) ops pxs d) :
    Awaits hdr raw tail last n ops pxs (d.withPending (d.pending - 1)) :=
  { h with pending := by rw [withPending_pending, h.pending, Nat.add_sub_cancel] }

/-- An opcode read (R275). -/
theorem Awaits.readOpcode (h : Awaits hdr raw tail last n (op :: ops) pxs d) :
    Awaits hdr raw tail last n ops pxs (d.withRd (d.rd + (encode op).length)) :=
  { h with
    started := fun h0 => h.started (Nat.eq_zero_of_add_eq_zero_right h0)
    input := by
      rw [withRd_inp, withRd_rd, ← List.drop_drop, h.input, List.flatMap_cons, List.append_assoc, List.drop_left] }

theorem Awaits.decode (h : Awaits hdr raw tail last n (op :: ops) pxs d) (hwf : op.wellFormed = true) :
    decode (d.inp.drop d.rd) = .ok op (encode op).length := by
  rw [h.input, List.flatMap_cons, List.append_assoc, decode_encode_append hwf]

/-- A RUN's length loaded (R276). -/
theorem Awaits.load (h : Awaits hdr raw tail last 0 ops pxs d) (n : Nat) :
    Awaits hdr raw tail last n ops pxs (d.withPending n) :=
  { h with pending := rfl }

/-- The opcode chosen for the next pixel, executed, produces this pixel, and the decoder stands before the others. -/
theorem Awaits.exec (hv : hdr.valid) (h : Awaits hdr raw tail last n ops (px :: pxs) d) (s : State)
    (hop : op = (select d.cache d.prev px).1) :
    ∃ d', exec op (s.withDec d) = .next (s.withDec d') ∧ Awaits hdr raw tail (some op) n ops pxs d' ∧
      d'.cache = (select d.cache d.prev px).2 ∧ d'.prev = px := by
  obtain ⟨hpx, hsafe⟩ := h.safe
  have hprod : op.producesPixel = true := hop ▸ select_producesPixel _ _ _
  have happ : applied op d = px := by rw [hop, applied_select hpx]
  have hlen : (pixelBytes hdr.channels px).length = hdr.channels.toNat := pixelBytes_length_of_valid hv px
  have hout : pixelOut d.hdr d.out d.wr px = some (d.out.writeBytes d.wr (pixelBytes hdr.channels px)) := by
    rw [pixelOut, h.hdr_eq, hlen, if_pos h.fits]
  refine ⟨d.produced op px (d.out.writeBytes d.wr (pixelBytes hdr.channels px)), ?_, ?_, ?_, rfl⟩
  · rw [exec_of_producesPixel hprod, produce, withDec_dec, happ, hout]
    rfl
  · exact {
      h with
      lastOp := rfl
      room := by
        have hroom := h.room
        rw [List.length_cons, Nat.add_one_mul] at hroom
        rw [produced_wr, h.hdr_eq]
        omega
      buffer := by
        rw [produced_out, produced_wr, h.hdr_eq, ← hlen, writeBytes_append]
        exact h.buffer
      safe := by
        rw [produced_cache, ← select_cache_eq_store]
        exact hsafe }
  · rw [produced_cache, select_cache_eq_store]

/-- A run from `s` ends with the header and the raw buffer as the result of the decoder's call. -/
def DecodesTo (P : Params) (hdr : Header) (raw : List Byte) (s : State) : Prop :=
  ∃ k t, runWith P k s = .next t ∧ t.dec.phase = .done ∧ t.dec.result = some (.ok hdr raw)

theorem decodesTo_of_done (hp : s.dec.phase = .done) (hresult : s.dec.result = some (.ok hdr raw)) :
    DecodesTo P hdr raw s := ⟨0, s, rfl, hp, hresult⟩

/-- The decoder's move to `d`, whatever the host and the encoder do in the step. -/
theorem decodesTo_of_move (hs : BlockInv s) (hp : s.dec.phase = .active) (h : decTick P s = .next (s.withDec d))
    (hrest : ∀ u, BlockInv u → u.dec = d → DecodesTo P hdr raw u) : DecodesTo P hdr raw s := by
  obtain ⟨u, hstep⟩ := stepWith_goes_on P hs
  have htick := stepWith_dec_of_active hstep hp
  rw [h] at htick
  injection htick with heq
  obtain ⟨k, t, hrun, hdone⟩ := hrest u (stepWith_keeps_blockInv hs hstep) (congrArg State.dec heq).symm
  exact ⟨k + 1, t, by rw [runWith, hstep]; exact hrun, hdone⟩

/-- The move that executes the opcode chosen for the next pixel, from the registers `d` that the opcode meets. -/
theorem decodesTo_of_pixel (hv : hdr.valid) (hs : BlockInv s) (hp : s.dec.phase = .active)
    (h : Awaits hdr raw tail last n ops (px :: pxs) d) (hop : op = (select d.cache d.prev px).1)
    (hmove : decTick P s = exec op (s.withDec d))
    (hrest : ∀ u, BlockInv u → Awaits hdr raw tail (some op) n ops pxs u.dec →
      u.dec.cache = (select d.cache d.prev px).2 → u.dec.prev = px → DecodesTo P hdr raw u) :
    DecodesTo P hdr raw s := by
  obtain ⟨d', hexec, hd', hcache, hprev⟩ := h.exec hv s hop
  refine decodesTo_of_move hs hp (hmove.trans hexec) fun u hu hdec => ?_
  rw [← hdec] at hd' hcache hprev
  exact hrest u hu hd' hcache hprev

theorem eq_cons_of_chosen {c : Cache} {prev : Pixel} (h : op :: sels = chosen c prev pxs) :
    ∃ px rest, pxs = px :: rest ∧ op = (select c prev px).1 ∧ sels = chosen (select c prev px).2 px rest := by
  cases pxs with
  | nil => cases h
  | cons px rest =>
    obtain ⟨hop, hsels⟩ := List.cons.inj h
    exact ⟨px, rest, rfl, hop, hsels⟩

theorem Expands.ne_nil_of_pending (h : Expands last (n + 1) ops sels) : ∃ op rest, sels = op :: rest := by
  cases h with
  | again h => exact ⟨_, _, rfl⟩

/-- Where the opcodes that remain expand to those chosen for the pixels that remain, the call ends with its buffer. -/
theorem Expands.decodesTo (hx : Expands last n ops sels) (hv : hdr.valid) (hs : BlockInv s)
    (h : Awaits hdr raw tail last n ops pxs s.dec) (hsels : sels = chosen s.dec.cache s.dec.prev pxs) :
    DecodesTo P hdr raw s := by
  induction hx generalizing s pxs with
  | done =>
    cases pxs with
    | cons px pxs => cases hsels
    | nil =>
      have hfull : s.dec.hdr.outLen = s.dec.wr := by simpa [h.hdr_eq] using h.room.symm
      have hraw : s.dec.out.readBytes 0 s.dec.hdr.outLen = some raw := by rw [h.hdr_eq]; exact h.buffer
      have htick : decTick P s = .next (s.withDec (s.dec.finish raw)) := by
        rw [decTick_of_full h.started hfull.le, decEnd_of_readBytes h.pending hraw, andThen_next]
      refine decodesTo_of_move hs h.phase htick fun u _ hu => decodesTo_of_done (by rw [hu]; rfl) ?_
      rw [hu, decFinish_result, h.hdr_eq]
  | @again op n ops sels _ ih =>
    obtain ⟨px, rest, rfl, hop, hrest⟩ := eq_cons_of_chosen hsels
    have hprod : op.producesPixel = true := hop ▸ select_producesPixel _ _ _
    have hpend : 0 < s.dec.pending := h.pending ▸ Nat.succ_pos n
    refine decodesTo_of_pixel hv hs h.phase h.countDown hop ?_ fun u hu hd hcache hprev => ih hu hd ?_
    · rw [decTick_of_inDecLoop (h.inDecLoop hv), decStep_of_pending hpend h.lastOp hprod]
    · rw [hcache, hprev]
      exact hrest
  | @opcode last op ops sels _ ih =>
    obtain ⟨px, rest, rfl, hop, hrest⟩ := eq_cons_of_chosen hsels
    have hwf : op.wellFormed = true := wellFormed_of_producesPixel (hop ▸ select_producesPixel _ _ _)
    refine decodesTo_of_pixel hv hs h.phase h.readOpcode hop ?_ fun u hu hd hcache hprev => ih hu hd ?_
    · rw [decTick_of_inDecLoop (h.inDecLoop hv), decStep_of_decode h.pending (h.decode hwf)]
    · rw [hcache, hprev]
      exact hrest
  | @run op n ops sels hwf hx ih =>
    obtain ⟨first, rest, rfl⟩ := hx.ne_nil_of_pending
    obtain ⟨px, pxs', rfl, -⟩ := eq_cons_of_chosen hsels
    have htick : decTick P s =
        .next (s.withDec ((s.dec.withRd (s.dec.rd + (encode (.run n)).length)).withPending (runLength n))) := by
      rw [decTick_of_inDecLoop (h.inDecLoop hv), decStep_of_decode h.pending (h.decode hwf), exec, execRun,
        withDec_dec, withRd_lastOp, h.lastOp]
      rfl
    refine decodesTo_of_move hs h.phase htick fun u hu hdec => ih hu (hdec ▸ h.readOpcode.load _) ?_
    rw [hdec]
    exact hsels

/-! ### The two calls together -/

theorem fieldError_of_encodeError (h : encodeError P hdr buf = none) : fieldError P hdr = none := by
  unfold encodeError at h
  split at h
  case isTrue => cases h
  case isFalse =>
    split at h
    case h_1 => cases h
    case h_2 hfield => exact hfield

/-- The header that was written is the header read, and passes (R122, R123). -/
theorem decodeHeader_headerBytes_append (hfield : fieldError P hdr = none) (rest : List Byte) :
    decodeHeader P (headerBytes P.magic hdr ++ rest) = .ok hdr := by
  refine decodeHeader_eq_ok_iff.2 ⟨?_, hfield⟩
  have hword : ∀ v : U32,
      rdBe32 (v.extractLsb' 24 8) (v.extractLsb' 16 8) (v.extractLsb' 8 8) (v.extractLsb' 0 8) = v := rgba_fromRgba
  simp [headerBytes, Magic.toBytes, be32, readHeader, hword]

/-- The header's move leaves the decoder before the first opcode, with the whole image to come. -/
theorem awaits_after_header (hlen : buf.length = hdr.outLen) (hv : hdr.valid) (hpxs : PixelsFrom hdr buf 0 pxs)
    (hsafe : ChosenAlphaSafe Cache.fresh Pixel.opaqueBlack pxs) (m : Magic) (ops : List Instr) :
    Awaits hdr buf endMarker none 0 ops pxs
      { Dec.accept (headerBytes m hdr ++ (ops.flatMap encode ++ endMarker)) with hdr := hdr, rd := headerLength } where
  phase := rfl
  started := Nat.succ_ne_zero 13
  hdr_eq := rfl
  lastOp := rfl
  pending := rfl
  input := List.drop_left' (headerBytes_length m hdr)
  room := by
    have hcount : pxs.length = hdr.pixels := by simpa using hpxs.count
    rw [hcount]
    exact Nat.zero_add _
  buffer := by
    rw [hpxs.bytes hv hlen, Nat.zero_mul, List.drop_zero, ← hlen]
    exact readBytes_writeBytes_nil buf
  safe := hsafe

/-- The round trip of an image for which no RGB is chosen that loses an alpha (R285). -/
theorem roundTrip (hs : BlockInv s) (hacc : s.enc = Enc.accept hdr buf) (hvalid : encodeError P hdr buf = none)
    (hpxs : PixelsFrom hdr buf 0 pxs) (hsafe : ChosenAlphaSafe Cache.fresh Pixel.opaqueBlack pxs) :
    ∃ t stream, runWith P (hdr.pixels + 2) s = .next t ∧ t.enc.result = some (.ok stream) ∧
      ∀ s', BlockInv s' → s'.dec = Dec.accept stream → DecodesTo P hdr buf s' := by
  obtain ⟨hv, hlen⟩ := encodeError_eq_none hvalid
  obtain ⟨t, ops, hrun, hresult, hx⟩ := runWith_encode_call hs hacc hvalid hpxs
  refine ⟨t, _, hrun, hresult, fun s' hs' hacc' => ?_⟩
  rw [List.append_assoc] at hacc'
  have hhdr := decodeHeader_headerBytes_append (fieldError_of_encodeError hvalid) (ops.flatMap encode ++ endMarker)
  have htick := decTick_of_begin (P := P) (s := s') (by rw [hacc']; rfl)
  rw [hacc', decBegin_of_ok hhdr] at htick
  refine decodesTo_of_move hs' (by rw [hacc']; rfl) htick fun u hu hdec => ?_
  exact hx.decodesTo hv hu (hdec ▸ awaits_after_header hlen hv hpxs hsafe P.magic ops) (by rw [hdec]; rfl)

/-- A pixel of a 3-channel image is opaque (R149). -/
theorem alpha_of_pixelIn_three {i : Nat} (h : pixelIn 3 buf i = some px) : px.a = 255 := by
  unfold pixelIn at h
  dsimp only at h
  split at h
  case h_1 => cases h; rfl
  case h_2 => cases h

/-- Settles O50: the condition on the encoder's run is one on the pixels of its image. -/
theorem decodeInvertsEncode : Obligations.DecodeInvertsEncode := by
  intro P s s' hdr buf hs hs' hacc hvalid hsafe
  obtain ⟨hv, hlen⟩ := encodeError_eq_none hvalid
  obtain ⟨pxs, hpxs⟩ := exists_pixelsFrom hv hlen (Nat.zero_le _)
  obtain ⟨t, stream, hrun, hresult, hdec⟩ :=
    roundTrip hs hacc hvalid hpxs (chosenAlphaSafe_of_alphaSafe hs hacc hvalid hpxs hsafe)
  exact ⟨t, stream, hrun, hresult, hdec s' hs'⟩

/-- Settles O51: every pixel of such an image is opaque, so that no RGB loses an alpha. -/
theorem opaqueImagesRoundTrip : Obligations.OpaqueImagesRoundTrip := by
  intro P s s' hdr buf hs hs' hacc hvalid hopaque
  obtain ⟨hv, hlen⟩ := encodeError_eq_none hvalid
  obtain ⟨pxs, hpxs⟩ := exists_pixelsFrom hv hlen (Nat.zero_le _)
  have halpha : ∀ px ∈ pxs, px.a = 255 := fun px hpx => by
    obtain ⟨i, hi⟩ := hpxs.mem hpx
    rcases hopaque with h3 | hall
    · rw [h3] at hi
      exact alpha_of_pixelIn_three hi
    · exact hall i px hi
  obtain ⟨t, stream, hrun, hresult, hdec⟩ :=
    roundTrip hs hacc hvalid hpxs (chosenAlphaSafe_of_opaque _ _ halpha)
  exact ⟨t, stream, hrun, hresult, hdec s' hs'⟩

/-! ### The hazard -/

/-- The stream of vector ENC-ALPHA-HAZARD: an RGBA and an RGB (R343). -/
def hazardStream (m : Magic) : List Byte :=
  headerBytes m ⟨2, 1, 4, 0⟩ ++ ([0xFF, 0, 0, 0, 128, 0xFE, 100, 0, 0] ++ endMarker)

theorem runWith_encode_hazard (m : Magic) :
    ∃ t, runWith ⟨m, none⟩ 4
        { State.reset with enc := Enc.accept ⟨2, 1, 4, 0⟩ [0, 0, 0, 128, 100, 0, 0, 128] } = .next t ∧
      t.enc.result = some (.ok (hazardStream m)) :=
  ⟨_, rfl, rfl⟩

/-- The raw buffer that this stream stands for: the image, but for the last alpha. -/
def hazardDecoded : List Byte := [0, 0, 0, 128, 100, 0, 0, 255]

/-- The decoder of this stream after its header. -/
def hazardBegun (m : Magic) : Dec :=
  { Dec.accept (hazardStream m) with hdr := ⟨2, 1, 4, 0⟩, rd := headerLength }

/-- The decoder of this stream after its two opcodes. -/
def hazardFull (m : Magic) : Dec :=
  { hazardBegun m with
    rd := 23
    wr := 8
    out := Memory.writeBytes [] 0 hazardDecoded
    cache := (Cache.fresh.store ⟨0, 0, 0, 128⟩).store ⟨100, 0, 0, 255⟩
    prev := ⟨100, 0, 0, 255⟩
    lastOp := some (.rgb 100 0 0) }

theorem stepWith_hazard_begin (m : Magic) :
    stepWith ⟨m, none⟩ { State.reset with dec := Dec.accept (hazardStream m) } =
      .next (State.reset.withDec (hazardBegun m)) := by
  have hhdr : decodeHeader ⟨m, none⟩ (Dec.accept (hazardStream m)).inp = .ok ⟨2, 1, 4, 0⟩ :=
    decodeHeader_headerBytes_append (P := ⟨m, none⟩) rfl _
  exact congrArg (fun d => Host.Outcome.next (State.reset.withDec d)) (decBegin_of_ok hhdr)

theorem runWith_hazard_opcodes (m : Magic) :
    runWith ⟨m, none⟩ 2 (State.reset.withDec (hazardBegun m)) = .next (State.reset.withDec (hazardFull m)) := rfl

theorem stepWith_hazard_end (m : Magic) :
    stepWith ⟨m, none⟩ (State.reset.withDec (hazardFull m)) =
      .next (State.reset.withDec ((hazardFull m).finish hazardDecoded)) := by
  have hend : decEnd (hazardFull m) = .next ((hazardFull m).finish hazardDecoded) :=
    decEnd_of_readBytes rfl (readBytes_writeBytes_nil hazardDecoded)
  exact congrArg (fun o => andThen o fun d => Host.Outcome.next (State.reset.withDec d)) hend

theorem runWith_decode_hazard (m : Magic) :
    runWith ⟨m, none⟩ 4 { State.reset with dec := Dec.accept (hazardStream m) } =
      .next (State.reset.withDec ((hazardFull m).finish hazardDecoded)) := by
  rw [runWith, stepWith_hazard_begin, andThen_next]
  exact runWith_succ (runWith_hazard_opcodes m) (stepWith_hazard_end m)

/-- Settles O52: both calls, evaluated; the RGB of the second pixel has lost its alpha. -/
theorem rgbAlphaHazardBreaksTheRoundTrip : Obligations.RgbAlphaHazardBreaksTheRoundTrip := by
  intro m
  obtain ⟨t, hrun, hresult⟩ := runWith_encode_hazard m
  exact ⟨t, hazardStream m, _, hrun, hresult, runWith_decode_hazard m, rfl⟩

end Sys2Proof.Safety
end

section
/-! Proofs of the family `60_exceptions.md`. Each engine's move that leads from ACTIVE to ERROR is exactly `raise` of an
error in the registers that the move began with (R314, R315); the obligations stand last. -/

namespace Sys2Proof.Safety

open Sys2Proof.Machine

variable {P : Params} {s t : State} {d d' : Dec} {e e' : Enc}

/-! ### The decoder's errors -/

theorem decBegin_eq_raise (hp : d.phase = .active) (herr : (decBegin P d).phase = .error) :
    ∃ x, decBegin P d = d.raise x := by
  cases hok : decodeHeader P d.inp with
  | error x => exact ⟨x, decBegin_of_error hok⟩
  | ok hdr =>
    rw [decBegin_of_ok hok] at herr
    cases hp.symm.trans herr

theorem decEnd_eq_raise (h : decEnd d = .next d') (herr : d'.phase = .error) : ∃ x, d' = d.raise x := by
  rcases decEnd_eq_next h with ⟨-, rfl⟩ | ⟨raw, -, -, rfl⟩
  · exact ⟨_, rfl⟩
  · cases herr

/-- Of the opcodes only NONE and RUN can raise: NONE with the read cursor where it is, RUN with the cursor put back by
the one byte of the RUN (R198, R276). -/
theorem exec_eq_raise {i : Instr} (h : exec i s = .next t) (hp : s.dec.phase = .active)
    (herr : t.dec.phase = .error) :
    ∃ r x, (i = .none ∧ r = s.dec.rd ∨ ∃ n, i = .run n ∧ r = s.dec.rd - 1) ∧ t.dec = (s.dec.withRd r).raise x := by
  rcases exec_eq_next h with ⟨-, m, -, rfl⟩ | ⟨n, op, -, -, rfl⟩ | ⟨r, x, hi, rfl⟩
  · cases hp.symm.trans herr
  · cases hp.symm.trans herr
  · exact ⟨r, x, hi.imp_right fun ⟨n, hrun, _, hr⟩ => ⟨n, hrun, hr⟩, rfl⟩

/-- A RUN takes one byte of the input (R101). -/
theorem eq_one_of_decode_run {bs : List Byte} {n : BitVec 6} {k : Nat} (h : decode bs = .ok (.run n) k) : k = 1 := by
  obtain ⟨hfit, hbytes⟩ := serializerAndParserAreInverse.2 bs 0 (.run n) k h
  calc k = ((bs.drop 0).take k).length := by rw [List.length_take_of_le (by rw [List.length_drop]; omega)]
    _ = 1 := by rw [← hbytes]; rfl

/-- An iteration of the loop that ends in ERROR has moved nothing: a repeated opcode produces a pixel and cannot raise,
an underrun is raised before the cursor moves, and a RUN with nothing to repeat stands at its own byte again. -/
theorem decStep_eq_raise (h : decStep s = .next t) (hp : s.dec.phase = .active) (herr : t.dec.phase = .error) :
    ∃ x, t.dec = s.dec.raise x := by
  rcases decStep_eq_next h with ⟨op, -, -, hprod, hexec⟩ | ⟨-, -, rfl⟩ | ⟨i, k, -, hdec, hexec⟩
  · obtain ⟨r, x, ⟨rfl, -⟩ | ⟨n, rfl, -⟩, -⟩ := exec_eq_raise hexec hp herr <;> cases hprod
  · exact ⟨_, rfl⟩
  · have hnone : i ≠ .none := ne_none_of_decode hdec
    rw [if_neg hnone] at hexec
    obtain ⟨r, x, ⟨hi, -⟩ | ⟨n, rfl, rfl⟩, ht⟩ := exec_eq_raise hexec hp herr
    · exact absurd hi hnone
    · obtain rfl : k = 1 := eq_one_of_decode_run hdec
      exact ⟨x, ht⟩

/-- A move of an ACTIVE decoder that ends in ERROR is `raise` of an error and nothing else. -/
theorem decTick_eq_raise (h : decTick P s = .next t) (hp : s.dec.phase = .active) (herr : t.dec.phase = .error) :
    ∃ x, t.dec = s.dec.raise x := by
  rcases decTick_eq_next h with ⟨-, rfl⟩ | ⟨-, -, hstep⟩ | ⟨d, -, -, hend, rfl⟩
  · exact decBegin_eq_raise hp herr
  · exact decStep_eq_raise hstep hp herr
  · exact decEnd_eq_raise hend herr

/-! ### The encoder's errors -/

@[simp] theorem takePixel_phase (e : Enc) (px : Pixel) : (e.takePixel px).phase = e.phase := by
  rw [takePixel_eq]

/-- Past its header the encoder takes a pixel, which leaves its phase, or finishes (R230). -/
theorem encTick_phase_of_emitted (h : encTick P e = .next e') (hp : e.phase = .active) (hout : e.out ≠ []) :
    e'.phase = .active ∨ e'.phase = .done := by
  rcases encTick_eq_next h with ⟨hnil, -⟩ | ⟨px, -, -, -, rfl⟩ | ⟨-, -, rfl⟩
  · exact absurd hnil hout
  · exact .inl ((takePixel_phase e px).trans hp)
  · exact .inr rfl

theorem encBegin_eq_raise (hp : e.phase = .active) (herr : (encBegin P e).phase = .error) :
    ∃ r, encBegin P e = e.raise r := by
  cases hok : encodeError P e.hdr e.buf with
  | some r => exact ⟨r, by rw [encBegin, hok]⟩
  | none =>
    rw [encBegin, hok] at herr
    cases hp.symm.trans herr

/-- A move of an ACTIVE encoder that ends in ERROR is validation, and `raise` of its error and nothing else. -/
theorem encTick_eq_raise (h : encTick P e = .next e') (hp : e.phase = .active) (herr : e'.phase = .error) :
    ∃ r, e' = e.raise r := by
  rcases encTick_eq_next h with ⟨-, rfl⟩ | ⟨px, hout, -⟩ | ⟨hout, -⟩
  · exact encBegin_eq_raise hp herr
  all_goals
    rcases encTick_phase_of_emitted h hp hout with hphase | hphase <;> cases hphase.symm.trans herr

/-! ### The obligations -/

/-- Settles O43: the invariant gives the host's move, the encoder's and the decoder's a next state each
(`stepWith_goes_on`, from `encTick_goes_on` and `decTick_goes_on`). -/
theorem invariantStatesNeverStop : Obligations.InvariantStatesNeverStop :=
  fun P _ => stepWith_goes_on P

/-- Settles O36: each engine has made its own move, and that move is a `raise` in the registers it began with. -/
theorem errorsArePreciseAndDeliverNoOutput : Obligations.ErrorsArePreciseAndDeliverNoOutput := by
  intro P s t h
  refine ⟨fun hp herr => ?_, fun hp herr => ?_⟩
  · obtain ⟨x, hraise⟩ := decTick_eq_raise (stepWith_dec_of_active h hp) hp herr
    rw [withDec_dec] at hraise
    rw [hraise]
    exact ⟨x, rfl, fun _ => rfl⟩
  · exact encTick_eq_raise (stepWith_enc_of_active h hp) hp herr

/-- Settles O37: past its header the encoder's move takes a pixel or finishes the call. -/
theorem encodeCannotFailAfterValidation : Obligations.EncodeCannotFailAfterValidation :=
  fun _ _ _ h hp hout => encTick_phase_of_emitted (stepWith_enc_of_active h hp) hp hout

/-- Settles O38: the code of a result is that of its error whatever the detail, and each reason's is its table row. -/
theorem errorCodesAreTheTables : Obligations.ErrorCodesAreTheTables := by
  refine ⟨fun _ => rfl, fun _ _ => rfl, fun _ => ⟨rfl, rfl⟩, fun _ _ => rfl, fun _ _ => rfl, fun _ => rfl, ?_⟩
  decide

end Sys2Proof.Safety
end

section
/-! Proofs of the family `70_reset_and_hazards.md`: the invariant of each engine at reset, and what a call does to the
engine that takes it. The obligations stand last. -/

namespace Sys2Proof.Safety

open Sys2Proof.Machine

variable {P : Params} {s t : State}

/-! ### The invariant at reset -/

/-- Apart from its phase, a reset encoder is one that has just taken a call; what `EncInv` asks of an ACTIVE, DONE or
ERROR encoder does not concern it. -/
theorem encInv_reset : EncInv Enc.reset :=
  { encInv_accept Header.unwritten [] with
    noResult := fun _ => rfl
    doneResult := fun h => nomatch h
    errorResult := fun h => nomatch h
    fresh := fun h => nomatch h
    loop := fun h => nomatch h }

/-- Apart from its phase, a reset decoder is one that has just taken a call; what `DecInv` asks of an ACTIVE, DONE or
ERROR decoder does not concern it. -/
theorem decInv_reset : DecInv Dec.reset :=
  { decInv_accept [] with
    noResult := fun _ => rfl
    doneResult := fun h => nomatch h
    errorResult := fun h => nomatch h
    fresh := fun h => nomatch h
    loop := fun h => nomatch h }

/-! ### The taking of a call -/

/-- An IDLE encoder takes the ENCODE call that the host asks next (R32). -/
theorem hostMove_encode {hdr : Header} {buf : List Byte} {rest : List HostAction}
    (hh : s.host = .encode hdr buf :: rest) (hp : s.enc.phase = .idle) :
    hostMove s = { s with enc := Enc.accept hdr buf, host := rest } := by
  simp only [hostMove, hh, hp, if_true]

/-- An IDLE decoder takes the DECODE call that the host asks next (R32). -/
theorem hostMove_decode {bytes : List Byte} {rest : List HostAction}
    (hh : s.host = .decode bytes :: rest) (hp : s.dec.phase = .idle) :
    hostMove s = { s with dec := Dec.accept bytes, host := rest } := by
  simp only [hostMove, hh, hp, if_true]

/-- The action that a step takes from the host is the one that the host's move in it takes. -/
theorem stepWith_host (h : stepWith P s = .next t) : t.host = (hostMove s).host := by
  obtain ⟨-, -, -, hhost, -⟩ := stepWith_eq_next h
  exact hhost

/-- A step in which an IDLE encoder takes a call only takes it: the engine makes its first move in the next step. -/
theorem stepWith_takes_encode {hdr : Header} {buf : List Byte} {rest : List HostAction}
    (h : stepWith P s = .next t) (hh : s.host = .encode hdr buf :: rest) (hp : s.enc.phase = .idle) :
    t.enc = Enc.accept hdr buf ∧ t.host = rest := by
  rw [stepWith_enc_of_not_active h (by simp [hp]), stepWith_host h, hostMove_encode hh hp]
  exact ⟨rfl, rfl⟩

/-- A step in which an IDLE decoder takes a call only takes it: the engine makes its first move in the next step. -/
theorem stepWith_takes_decode {bytes : List Byte} {rest : List HostAction}
    (h : stepWith P s = .next t) (hh : s.host = .decode bytes :: rest) (hp : s.dec.phase = .idle) :
    t.dec = Dec.accept bytes ∧ t.host = rest := by
  rw [stepWith_dec_of_not_active h (by simp [hp]), stepWith_host h, hostMove_decode hh hp]
  exact ⟨rfl, rfl⟩

/-! ### The obligations -/

/-- Settles O32: the engine that takes the call is `Enc.accept` or `Dec.accept` of the call's inputs after the step, in
which every other register is that of reset. -/
theorem everyCallResetsItsEngine : Obligations.EveryCallResetsItsEngine := by
  refine ⟨fun P s t hdr buf rest hh hp h => ?_, fun P s t bytes rest hh hp h => ?_⟩
  · obtain ⟨henc, hrest⟩ := stepWith_takes_encode h hh hp
    rw [henc]
    exact ⟨Cache.read_fresh, rfl, rfl, rfl, rfl, rfl, rfl, rfl, rfl, rfl, hrest⟩
  · obtain ⟨hdec, hrest⟩ := stepWith_takes_decode h hh hp
    rw [hdec]
    exact ⟨Cache.read_fresh, rfl, rfl, rfl, rfl, rfl, Memory.read_nil, rfl, rfl, rfl, hrest⟩

/-- Settles O41: each engine meets its invariant at reset. -/
theorem invariantHoldsAtReset : Obligations.InvariantHoldsAtReset := ⟨encInv_reset, decInv_reset⟩

end Sys2Proof.Safety
end
